-- ==== Sys2Proof/Word.lean ====
section
/-! DEFINITION. The word types of the command-stream header decoder (00_scope.md R8, R9). -/

namespace Sys2Proof

/-- `u32`: a command word, an argument word, a class value, a macro entry id, a method number. -/
abbrev Word := BitVec 32

/-- One byte of the port's memory. -/
abbrev Byte := BitVec 8

/-- `u64`: a GPU virtual address, or a linear address as the port answers it (`ADDR_WIDTH = 64`, D9). -/
abbrev Addr := BitVec 64

/-- A subchannel, 3 bits, `0..7` (R13, R60). -/
abbrev SubCh := BitVec 3

end Sys2Proof
end

