-- ==== Sys2Proof/Config.lean ====
section
/-! DEFINITION. The parameters of the block (00_scope.md R6, R7): the header profile, the engine class values and the
kind of Memory Access Port. They are plain data that State carries and no step changes, so that a statement about
every state is a statement about every value of the parameters. -/

namespace Sys2Proof

/-- `HDR_PROFILE` (R60): the bit positions of the header fields and the numbering of the mode codes. -/
inductive HdrProfile where
  /-- `PROFILE_DOC`, the spec's default (30_encoding.md R61, R62). -/
  | doc
  /-- `PROFILE_UPSTREAM`, the named alternative (30_encoding.md R63). -/
  | upstream
deriving DecidableEq, Repr

/-- The order in which the port assembles a word from memory bytes: the port's, not the block's (20_memory.md R43). -/
inductive ByteOrder where
  /-- The byte at `a` in bits 7..0: the default port (R43, R44, D11). -/
  | little
  /-- The byte at `a` in bits 31..24: a memory-backed port of the other order (R44, I9). -/
  | big
deriving DecidableEq, Repr

/-- `PORT` (R6), which is OPEN: how `read32` answers (R41, R44, I9). What it answers from is data in State, and `translate` is
a map there for every port (R40). -/
inductive Port where
  /-- A port backed by a memory of bytes, with its byte order (R43, D11); with `alignedOnly` a read at an address that is no
  multiple of 4 fails (R45, D12). -/
  | memory (order : ByteOrder) (alignedOnly : Bool)
  /-- Any other port: `read32` given answer by answer, with nothing that ties one address to another (R44: "A model may take any
  other port as a parameter"). -/
  | table
deriving DecidableEq, Repr

/-- The default memory-backed port of R44. -/
def Port.default : Port := .memory .little true

/-- The parameters that R6 lists as a model's arguments. -/
structure Config where
  profile : HdrProfile
  /-- `CLASS_FERMI_TWOD`, OPEN (R70, D3). -/
  classFermiTwoD : Word
  /-- `CLASS_MAXWELL_COMPUTE`, OPEN (R70, D3). -/
  classMaxwellCompute : Word
  port : Port
deriving DecidableEq, Repr

/-- `CLASS_MAXWELL_3D = 7` (R70; source). -/
def classMaxwell3D : Word := 7

/-- R7: the three class values are pairwise distinct. -/
def Config.wf (c : Config) : Bool :=
  c.classFermiTwoD != classMaxwell3D && c.classMaxwellCompute != classMaxwell3D &&
    c.classFermiTwoD != c.classMaxwellCompute

/-- The spec's test case T1 of the OPEN class values, with the default profile and the default port
(95_test_vectors.md; D3). DESIGN CHOICE, log 2: the class values say nothing of any hardware. -/
def Config.t1 : Config :=
  { profile := .doc, classFermiTwoD := 0x20, classMaxwellCompute := 0x30, port := Port.default }

/-- `2^ADDR_WIDTH` (R42, D9). -/
def addrLimit : Nat := 2 ^ 64

end Sys2Proof
end

