-- ==== Sys2Proof/Syntax.lean ====
section
/-! DEFINITION. The instructions (00_scope.md R3): header words by submission mode, and method calls by method class; one
constructor of `Instr` for each row of opcode_table.json. -/

namespace Sys2Proof

/-- The submission mode of a header (30_encoding.md R62; 40_header_decoder.md R82). `Invalid(c)` keeps its raw code, 6 or 7. -/
inductive Mode where
  | increasingOld
  | increasing
  | nonIncreasingOld
  | nonIncreasing
  | increaseOnce
  | inlineMode
  | invalid6
  | invalid7
deriving DecidableEq, Repr

/-- The four fields of a header beside its mode (R60). `argCount` and `inlineData` have the width of the wider profile
(13 bits; log 22); `HeaderFields.wf` says which values a profile's layout can hold. -/
structure HeaderFields where
  method : BitVec 13
  subchannel : SubCh
  argCount : BitVec 13
  inlineData : BitVec 13
deriving DecidableEq, Repr

/-- `CommandHeader` (R80): what `decode` produces for every word. -/
structure Header where
  fields : HeaderFields
  mode : Mode
deriving DecidableEq, Repr

/-- The operands every method call has beside its method number (41_method_dispatcher.md R90). -/
structure CallArgs where
  subchannel : SubCh
  value : Word
  remaining : Word
deriving DecidableEq, Repr

/-- The instruction set of R3. -/
inductive Instr where
  /-- Header, mode IncreasingOld (R123). -/
  | increasingOld (f : HeaderFields)
  /-- Header, mode Increasing (R124). -/
  | increasing (f : HeaderFields)
  /-- Header, mode NonIncreasingOld (R125). -/
  | nonIncreasingOld (f : HeaderFields)
  /-- Header, mode NonIncreasing (R126). -/
  | nonIncreasing (f : HeaderFields)
  /-- Header, mode IncreaseOnce (R127). -/
  | increaseOnce (f : HeaderFields)
  /-- Header, mode Inline (R128). -/
  | inlineHeader (f : HeaderFields)
  /-- Header, mode code 6 (R122). -/
  | invalidMode6 (f : HeaderFields)
  /-- Header, mode code 7 (R122). -/
  | invalidMode7 (f : HeaderFields)
  /-- Method 0x47 (R92). -/
  | setGraphMacroEntry (a : CallArgs)
  /-- Method 0x46 (R93). -/
  | setGraphMacroCodeArg (a : CallArgs)
  /-- Method 0x00 (R95). -/
  | bindObject (a : CallArgs)
  /-- Method 0x45 (R96). -/
  | setGraphMacroCode (a : CallArgs)
  /-- Any other method below 0x100 (R97). -/
  | otherControl (method : Word) (a : CallArgs)
  /-- Any method of 0x100 and above (R98). -/
  | engineForward (method : Word) (a : CallArgs)
deriving DecidableEq, Repr

/-- The instruction a decoded header is: its mode names the row (R73). -/
def Header.toInstr (h : Header) : Instr :=
  match h.mode with
  | .increasingOld => .increasingOld h.fields
  | .increasing => .increasing h.fields
  | .nonIncreasingOld => .nonIncreasingOld h.fields
  | .nonIncreasing => .nonIncreasing h.fields
  | .increaseOnce => .increaseOnce h.fields
  | .inlineMode => .inlineHeader h.fields
  | .invalid6 => .invalidMode6 h.fields
  | .invalid7 => .invalidMode7 h.fields

/-- The header of a header instruction; none for a method call. -/
def Instr.header? (i : Instr) : Option Header :=
  match i with
  | .increasingOld f => some ⟨f, .increasingOld⟩
  | .increasing f => some ⟨f, .increasing⟩
  | .nonIncreasingOld f => some ⟨f, .nonIncreasingOld⟩
  | .nonIncreasing f => some ⟨f, .nonIncreasing⟩
  | .increaseOnce f => some ⟨f, .increaseOnce⟩
  | .inlineHeader f => some ⟨f, .inlineMode⟩
  | .invalidMode6 f => some ⟨f, .invalid6⟩
  | .invalidMode7 f => some ⟨f, .invalid7⟩
  | .setGraphMacroEntry _ => none
  | .setGraphMacroCodeArg _ => none
  | .bindObject _ => none
  | .setGraphMacroCode _ => none
  | .otherControl _ _ => none
  | .engineForward _ _ => none

/-- The method number and the operands of a method call; none for a header (R68). -/
def Instr.call? (i : Instr) : Option (Word × CallArgs) :=
  match i with
  | .increasingOld _ => none
  | .increasing _ => none
  | .nonIncreasingOld _ => none
  | .nonIncreasing _ => none
  | .increaseOnce _ => none
  | .inlineHeader _ => none
  | .invalidMode6 _ => none
  | .invalidMode7 _ => none
  | .setGraphMacroEntry a => some (0x47, a)
  | .setGraphMacroCodeArg a => some (0x46, a)
  | .bindObject a => some (0x00, a)
  | .setGraphMacroCode a => some (0x45, a)
  | .otherControl m a => some (m, a)
  | .engineForward m a => some (m, a)

end Sys2Proof
end

