-- ==== Sys2Proof/WellFormed.lean ====
section
/-! DEFINITION. Which instructions an encoding can hold: the field widths of the header profile (30_encoding.md R61, R63) and
the method ranges of the method rows (30_encoding.md R68, R69). -/

namespace Sys2Proof

/-- Under `PROFILE_DOC` arg_count is 2 bits and inline_data 11 (R61); under `PROFILE_UPSTREAM` the two are one and the same
13 bits (R63). The other fields have the same width in both. -/
def HeaderFields.wf (p : HdrProfile) (f : HeaderFields) : Bool :=
  match p with
  | .doc => decide (f.argCount.toNat < 4) && decide (f.inlineData.toNat < 2048)
  | .upstream => f.argCount == f.inlineData

/-- R68: the methods of the row OtherControl, all of `[0x01, 0x100)` but 0x45, 0x46 and 0x47. -/
def isOtherControl (m : Word) : Bool :=
  decide (m.toNat < 0x100) && m != 0x00 && m != 0x45 && m != 0x46 && m != 0x47

/-- An instruction that some encoding stands for. -/
def Instr.wf (p : HdrProfile) (i : Instr) : Bool :=
  match i with
  | .increasingOld f => f.wf p
  | .increasing f => f.wf p
  | .nonIncreasingOld f => f.wf p
  | .nonIncreasing f => f.wf p
  | .increaseOnce f => f.wf p
  | .inlineHeader f => f.wf p
  | .invalidMode6 f => f.wf p
  | .invalidMode7 f => f.wf p
  | .setGraphMacroEntry _ => true
  | .setGraphMacroCodeArg _ => true
  | .bindObject _ => true
  | .setGraphMacroCode _ => true
  | .otherControl m _ => isOtherControl m
  | .engineForward m _ => decide (0x100 ≤ m.toNat)

end Sys2Proof
end

