-- ==== Sys2Proof/Decode.lean ====
section
/-! DEFINITION. The header decoder (40_header_decoder.md R80 to R84), the method classifier (30_encoding.md R69), the encoder
written from the same tables (30_encoding.md R61, R63), and the byte order of a word (20_memory.md R43). -/

namespace Sys2Proof

/-! ## Bit fields and byte order -/

/-- `modeOf(c)`: R82 under `PROFILE_DOC`; under `PROFILE_UPSTREAM` codes 4 and 5 are exchanged (R63). -/
def modeOf (p : HdrProfile) (c : BitVec 3) : Mode :=
  match p, c.toNat with
  | _, 0 => .increasingOld
  | _, 1 => .increasing
  | _, 2 => .nonIncreasingOld
  | _, 3 => .nonIncreasing
  | .doc, 4 => .increaseOnce
  | .doc, 5 => .inlineMode
  | .upstream, 4 => .inlineMode
  | .upstream, 5 => .increaseOnce
  | _, 6 => .invalid6
  | _, _ => .invalid7

/-- The mode code that stands for a mode (R62, R63). -/
def modeCode (p : HdrProfile) (m : Mode) : BitVec 3 :=
  match p, m with
  | _, .increasingOld => 0
  | _, .increasing => 1
  | _, .nonIncreasingOld => 2
  | _, .nonIncreasing => 3
  | .doc, .increaseOnce => 4
  | .doc, .inlineMode => 5
  | .upstream, .inlineMode => 4
  | .upstream, .increaseOnce => 5
  | _, .invalid6 => 6
  | _, .invalid7 => 7

/-- The word whose byte at the lowest address is `b0` (R43, R44). -/
def wordOfBytes (o : ByteOrder) (b0 b1 b2 b3 : Byte) : Word :=
  match o with
  | .little => b3 ++ b2 ++ b1 ++ b0
  | .big => b0 ++ b1 ++ b2 ++ b3

/-- The byte of a word that lies `k` bytes above the word's address, `k` in 0..3. -/
def byteOfWord (o : ByteOrder) (w : Word) (k : Nat) : Byte :=
  match o with
  | .little => w.extractLsb' (8 * k) 8
  | .big => w.extractLsb' (8 * (3 - k)) 8

/-- The four bytes of a word in address order. -/
def bytesOfWord (o : ByteOrder) (w : Word) : List Byte :=
  [byteOfWord o w 0, byteOfWord o w 1, byteOfWord o w 2, byteOfWord o w 3]

/-! ## The header decoder -/

/-- `decode(word)` (R80): total and pure (R83, R84); every field comes from a fixed bit range, whatever the mode (R81). -/
def decodeHeader (p : HdrProfile) (w : Word) : Header :=
  match p with
  | .doc =>
    { fields :=
        { method := w.extractLsb' 0 13
          subchannel := w.extractLsb' 13 3
          argCount := (w.extractLsb' 16 2).setWidth 13
          inlineData := (w.extractLsb' 18 11).setWidth 13 }
      mode := modeOf .doc (w.extractLsb' 29 3) }
  | .upstream =>
    { fields :=
        { method := w.extractLsb' 0 13
          subchannel := w.extractLsb' 13 3
          argCount := w.extractLsb' 16 13
          inlineData := w.extractLsb' 16 13 }
      mode := modeOf .upstream (w.extractLsb' 29 3) }

/-- The instruction a word at a header position is (R73: "decode the header by its mode row"). -/
def decodeWord (p : HdrProfile) (w : Word) : Instr := (decodeHeader p w).toInstr

/-- Why bytes hold no header word. Every word of four bytes decodes (R84); fewer than four bytes are no word. -/
inductive DecodeError where
  | fewerThanFourBytes
deriving DecidableEq, Repr

/-- The header at the front of a byte sequence, and the bytes after it. -/
def decode (p : HdrProfile) (o : ByteOrder) (bytes : List Byte) : Except DecodeError (Instr × List Byte) :=
  match bytes with
  | b0 :: b1 :: b2 :: b3 :: rest => .ok (decodeWord p (wordOfBytes o b0 b1 b2 b3), rest)
  | _ => .error .fewerThanFourBytes

/-! ## The method classifier -/

/-- The five behaviours of the dispatcher (R69, R91). -/
inductive MethodClass where
  | macroEntry
  | macroArg
  | bind
  | otherControl
  | engineForward
deriving DecidableEq, Repr

/-- `classify(method)` in the source's precedence order (R69). -/
def classify (m : Word) : MethodClass :=
  if m = 0x47 then .macroEntry
  else if m = 0x46 then .macroArg
  else if m = 0x00 then .bind
  else if m.toNat < 0x100 then .otherControl
  else .engineForward

/-- The instruction a method call is: the first matching method row (R69, R73); SetGraphMacroCode is the named row among
the other control methods (R91, R96). -/
def decodeCall (m : Word) (a : CallArgs) : Instr :=
  match classify m with
  | .macroEntry => .setGraphMacroEntry a
  | .macroArg => .setGraphMacroCodeArg a
  | .bind => .bindObject a
  | .otherControl => if m = 0x45 then .setGraphMacroCode a else .otherControl m a
  | .engineForward => .engineForward m a

/-! ## The table's words

opcode_table.json has two formats (R73): a header row is matched on a command word, a method row on the 32-bit method value
of a call. A method value is no word of the stream. Which format a table word is read in: DESIGN CHOICE, log 16. -/

/-- A table word whose bits 31..8 are zero is read as a method value: those are the words that the method rows with fixed
bits match (0x47, 0x46, 0x00, 0x45 and OtherControl). -/
def isMethodTableWord (w : Word) : Bool := decide (w.toNat < 0x100)

/-- The operands a table word of the format `method` has: an argument word of zero on subchannel 0 in a run of one call. -/
def tableCallArgs : CallArgs := { subchannel := 0, value := 0, remaining := 0 }

/-- The header words of the table are those of `PROFILE_DOC` (R73). -/
def decodeTableWord (nbits w : Nat) : Option Instr :=
  if nbits ≤ 32 then
    let word : Word := BitVec.ofNat 32 (w % 2 ^ nbits)
    if isMethodTableWord word then some (decodeCall word tableCallArgs)
    else
      match decode .doc .little (bytesOfWord .little word) with
      | .ok (i, _) => some i
      | .error _ => none
  else none

/-! ## The encoder -/

/-- R61: `word = method | subchannel<<13 | arg_count<<16 | inline_data<<18 | mode<<29`. R63: one field of 13 bits at 28:16,
the immediate under Inline and the count otherwise. -/
def encodeHeader (p : HdrProfile) (h : Header) : Word :=
  match p with
  | .doc =>
    modeCode .doc h.mode ++ (h.fields.inlineData.setWidth 11) ++ (h.fields.argCount.setWidth 2) ++
      h.fields.subchannel ++ h.fields.method
  | .upstream =>
    modeCode .upstream h.mode ++ (if h.mode = .inlineMode then h.fields.inlineData else h.fields.argCount) ++
      h.fields.subchannel ++ h.fields.method

/-- The 32 bits that stand for an instruction: a header's command word, or a call's method value (R73). -/
def encode (p : HdrProfile) (i : Instr) : Word :=
  match i with
  | .increasingOld f => encodeHeader p ⟨f, .increasingOld⟩
  | .increasing f => encodeHeader p ⟨f, .increasing⟩
  | .nonIncreasingOld f => encodeHeader p ⟨f, .nonIncreasingOld⟩
  | .nonIncreasing f => encodeHeader p ⟨f, .nonIncreasing⟩
  | .increaseOnce f => encodeHeader p ⟨f, .increaseOnce⟩
  | .inlineHeader f => encodeHeader p ⟨f, .inlineMode⟩
  | .invalidMode6 f => encodeHeader p ⟨f, .invalid6⟩
  | .invalidMode7 f => encodeHeader p ⟨f, .invalid7⟩
  | .setGraphMacroEntry _ => 0x47
  | .setGraphMacroCodeArg _ => 0x46
  | .bindObject _ => 0x00
  | .setGraphMacroCode _ => 0x45
  | .otherControl m _ => m
  | .engineForward m _ => m

end Sys2Proof
end

