-- ==== Sys2Proof/Machine/State.lean ====
section
/-! DEFINITION. What the block holds (10_state.md R20 to R35), what its step takes as parameters (10_state.md R34), its
output trace (60_exceptions.md R171), and its value after reset (70_reset_and_hazards.md R180). -/

namespace Sys2Proof.Machine

open Sys2Proof

/-! ## Faults and events of the block -/

/-- The fault codes of 60_exceptions.md R151 to R157. These are faults of the BLOCK: taking one is a next state. -/
inductive FaultCode where
  /-- `F_UNKNOWN_MODE`, code 1 (R151). -/
  | unknownMode
  /-- `F_INCREASE_ONCE_ZERO`, code 2 (R152). -/
  | increaseOnceZero
  /-- `F_BIND_CONFLICT`, code 3 (R153). -/
  | bindConflict
  /-- `F_UNBOUND_SUBCHANNEL`, code 4 (R154). -/
  | unboundSubchannel
  /-- `F_UNKNOWN_ENGINE`, code 5 (R155). -/
  | unknownEngine
  /-- `F_MACRO_NO_ENTRY`, code 6 (R156). -/
  | macroNoEntry
  /-- `F_PORT`, code 7 (R157). -/
  | port
deriving DecidableEq, Repr

/-- `FAULT`'s record (R29). An entry that the raising rule leaves out is `none` (R151 to R157). `hdrAddr` is a natural (log 7). -/
structure FaultRecord where
  code : FaultCode
  hdrAddr : Option Nat
  hdrWord : Option Word
  method : Option Word
  subchannel : Option SubCh
  value : Option Word
  argi : Option Nat
deriving DecidableEq, Repr

/-- The kinds of diagnostic; there is one (R158). -/
inductive DiagKind where
  /-- `DIAG_UNIMPLEMENTED_CONTROL`, diagnostic code 1. -/
  | unimplementedControl
deriving DecidableEq, Repr

/-- The events of the output trace (R171); an engine call is one of them (log 18). -/
inductive Event where
  | translate (va lin : Addr)
  | read (addr : Nat) (w : Word)
  | write2D (method value : Word)
  | write3D (method value remaining : Word)
  | writeCompute (method value : Word)
  | submitMacro (entry : Word) (code : List Word)
  | diag (kind : DiagKind) (method : Word) (subchannel : SubCh) (value : Word)
  | done
  | fault (code : FaultCode) (record : FaultRecord)
deriving DecidableEq, Repr

/-! ## The pieces of state -/

/-- `MACRO` (R23); the code has no capacity (log 21). -/
inductive MacroUpload where
  | idle
  | accumulating (entry : Word) (code : List Word)
deriving DecidableEq, Repr

/-- `PHASE` (R27). The arguments of `Args(HDR, ARGI)` are the fields `hdr` and `argi` of State. -/
inductive Phase where
  | idle
  | header
  | args
  | faulted
deriving DecidableEq, Repr

/-- What the host will do next (60_exceptions.md R172), with the changes of the port's data it may make between
calls (20_memory.md R54; log 12). -/
inductive HostRequest where
  | process (base : Addr) (wordCount : Word)
  | reset
  /-- The byte at an address becomes a value, or becomes unmapped. -/
  | setByte (addr : Addr) (b : Option Byte)
  /-- The translation of a virtual address becomes a linear address, or is withdrawn. -/
  | setTranslation (va : Addr) (lin : Option Addr)
  /-- `read32` of a port given answer by answer comes to answer a word at an address, or to fail there. -/
  | setAnswer (addr : Addr) (w : Option Word)
deriving DecidableEq, Repr

/-- The port's byte memory: (address, byte) pairs, addresses strictly rising (`Memory.wf`). An unlisted address is
unmapped (R44: `None`), so a read of it fails. -/
abbrev Memory := List Host.Cell

/-- The port's translation map: (virtual address, linear address) pairs, strictly rising. An unlisted virtual address has
no translation (R44). -/
abbrev TransMap := List (Nat × Addr)

/-- `read32` of a port that is no memory of bytes (`Port.table`): (linear address, word) pairs, strictly rising. At an unlisted
address the read fails (R41; log 3). -/
abbrev AnswerTable := List (Nat × Word)

/-- The binding table has 8 slots (R21). -/
abbrev BindTable := Vector (Option Word) 8

/-- The machine. -/
structure State where
  /-- The parameters of the step (R6, R34); no step changes them. -/
  cfg : Config
  /-- `BIND` (R21). -/
  bind : BindTable
  /-- `MACRO` (R23). -/
  upload : MacroUpload
  /-- `PHASE` (R27). -/
  phase : Phase
  /-- `CUR` (R25), on naturals (R42; log 6). -/
  cur : Nat
  /-- `END` (R26), a natural. -/
  endAddr : Nat
  /-- `HDR` (R28). -/
  hdr : Header
  /-- `ARGI` (R28). -/
  argi : Nat
  /-- `hdr_addr` of the current run (R121, R157; log 5). -/
  hdrAddr : Nat
  /-- `hdr_word` of the current run (R121, R157; log 5). -/
  hdrWord : Word
  /-- `FAULT` (R29). -/
  fault : Option FaultRecord
  /-- `MEM` of the port (R44). -/
  mem : Memory
  /-- `TMAP` of the port (R44). -/
  tmap : TransMap
  /-- The answers of a port given answer by answer (R6 `PORT`, R41; log 3); no other port reads them. -/
  answers : AnswerTable
  /-- The host's coming interactions, first one first (log 8). -/
  requests : List HostRequest
  /-- The output trace, oldest event first (R171). -/
  trace : List Event
deriving DecidableEq, Repr

/-! ## Stops of the model -/

/-- Where a step of the MODEL stops with a fault. No instruction raises one: the block's own faults (`FaultCode`) are next
states. -/
inductive Fault where
  /-- Raised by `step` when `PHASE = Faulted` and the host has nothing waiting: "no step until reset" (42 R134; I15
  `stuck`). SAFE: the block has no move there. -/
  | stuckUntilReset
deriving DecidableEq, Repr

/-- Where the model gives no move. -/
inductive Refusal where
  /-- An instruction with no meaning yet; raised by no arm of this model. SAFE. -/
  | notModelled (mnemonic : String)
  /-- Raised by `step` when the host issues `process` while `PHASE = Faulted`: a breach of the host's duty, to which the
  spec gives no move (R120, R172, D22). SAFE. -/
  | processWhileFaulted
deriving DecidableEq, Repr

/-! ## Reset -/

/-- The state after reset of a block with parameters `c` (R35, R180). CUR, END, HDR, ARGI and the run's header word and
address are unspecified: 0 and the decoding of the word 0 (DESIGN CHOICE, log 4). -/
def State.resetWith (c : Config) : State :=
  { cfg := c
    bind := Vector.replicate 8 none
    upload := .idle
    phase := .idle
    cur := 0
    endAddr := 0
    hdr := { fields := { method := 0, subchannel := 0, argCount := 0, inlineData := 0 }, mode := .increasingOld }
    argi := 0
    hdrAddr := 0
    hdrWord := 0
    fault := none
    mem := []
    tmap := []
    answers := []
    requests := []
    trace := [] }

/-- The machine right after reset, with the parameter values of log 1 to 3. -/
def State.reset : State := State.resetWith Config.t1

end Sys2Proof.Machine
end

