-- ==== Sys2Proof/Machine/Ops.lean ====
section
/-! DEFINITION. The named operations over the state: the output trace (60_exceptions.md R171), taking a fault and the reset
that alone clears it (60_exceptions.md R160, R162; 70_reset_and_hazards.md R180), the binding table (10_state.md R21), the
port's memory, translation map and answers (20_memory.md R40 to R44), and the beginning and the end of a `process` call
(42_command_list_processor.md R120, R130). -/

namespace Sys2Proof.Machine

open Sys2Proof

/-! ## Sparse maps in one canonical form -/

/-- The value listed at a key. -/
def lookupKey {α : Type} (k : Nat) (l : List (Nat × α)) : Option α :=
  match l with
  | [] => none
  | (j, v) :: rest => if j = k then some v else lookupKey k rest

/-- The list with the key at a value, or with the key unlisted; keys that rise strictly go on rising strictly. -/
def setKey {α : Type} (k : Nat) (v : Option α) (l : List (Nat × α)) : List (Nat × α) :=
  match l with
  | [] => (v.map fun x => (k, x)).toList
  | (j, y) :: rest =>
    if j < k then (j, y) :: setKey k v rest
    else if j = k then (v.map fun x => (k, x)).toList ++ rest
    else (v.map fun x => (k, x)).toList ++ (j, y) :: rest

/-- The canonical form of a sparse map over 64-bit keys: keys strictly rising, each below `2^64`. An unlisted key reads as
`none` and every listed one as `some`, so no entry equals what an unlisted key reads as. -/
abbrev keysWf {α : Type} (l : List (Nat × α)) : Prop :=
  l.Pairwise (fun a b => a.1 < b.1) ∧ ∀ c ∈ l, c.1 < addrLimit

/-- The canonical form of the port's memory. -/
abbrev Memory.wf (m : Memory) : Prop := keysWf m

/-- What the port's memory holds at an address: `MEM(a)`, `none` where unmapped (R44; log 3). -/
def Memory.byteAt (m : Memory) (a : Nat) : Option Byte := lookupKey a m

/-- The memory with one byte mapped to a value, or unmapped. -/
def Memory.setByte (m : Memory) (a : Nat) (b : Option Byte) : Memory := setKey a b m

/-- The memory with a word stored in four bytes from `a` upwards. The block never writes memory (R41): this is the host's
side of a stream. -/
def Memory.setWord (o : ByteOrder) (m : Memory) (a : Nat) (w : Word) : Memory :=
  (((m.setByte a (some (byteOfWord o w 0))).setByte (a + 1) (some (byteOfWord o w 1))).setByte (a + 2)
    (some (byteOfWord o w 2))).setByte (a + 3) (some (byteOfWord o w 3))

/-! ## The Memory Access Port -/

/-- `translate(va)` of the port, `TMAP(va)`; none reports that `va` has no translation (R40, R44). -/
def State.translate (s : State) (va : Addr) : Option Addr := lookupKey va.toNat s.tmap

/-- `read32(a)` of a memory-backed port (R44): fails where the port wants alignment and `a` has none, or a byte is unmapped. -/
def memoryRead (o : ByteOrder) (alignedOnly : Bool) (m : Memory) (a : Nat) : Option Word :=
  if alignedOnly && a % 4 != 0 then none
  else
    match m.byteAt a, m.byteAt (a + 1), m.byteAt (a + 2), m.byteAt (a + 3) with
    | some b0, some b1, some b2, some b3 => some (wordOfBytes o b0 b1 b2 b3)
    | _, _, _, _ => none

/-- `read32(a)` of the port (R41): from its bytes, or the answer listed at `a`. -/
def State.portRead (s : State) (a : Nat) : Option Word :=
  match s.cfg.port with
  | .memory o al => memoryRead o al s.mem a
  | .table => lookupKey a s.answers

/-- `MemRead(a, 4)` (R41, R42): with `a + 4 > 2^64` there is no port call and the read fails. -/
def State.memRead (s : State) (a : Nat) : Option Word :=
  if a + 4 ≤ addrLimit then s.portRead a else none

/-! ## The output trace -/

/-- `emit E` (R10). -/
def State.emit (s : State) (e : Event) : State := { s with trace := s.trace ++ [e] }

/-- `diag DIAG_UNIMPLEMENTED_CONTROL(method, subchannel, value)` (R158): the event alone. -/
def State.diagUnimplemented (s : State) (method : Word) (a : CallArgs) : State :=
  s.emit (.diag .unimplementedControl method a.subchannel a.value)

/-! ## Taking a fault, and what clears it -/

/-- Fault entry, `raise F(info)` (R160): the record, the FAULT event, `PHASE = Faulted`; nothing else changes. There is no
vector and no saved context. -/
def State.raise (s : State) (r : FaultRecord) : State :=
  { s with fault := some r, phase := .faulted, trace := s.trace ++ [.fault r.code r] }

/-- The record of a fault raised before any header word is in hand: a translation or a header read that failed (R157). -/
def noRunRecord (c : FaultCode) : FaultRecord :=
  { code := c, hdrAddr := none, hdrWord := none, method := none, subchannel := none, value := none, argi := none }

/-- The record of a fault of the header itself (R151, R152): the call's entries are `none`. -/
def State.headerRecord (s : State) (c : FaultCode) : FaultRecord :=
  { code := c, hdrAddr := some s.hdrAddr, hdrWord := some s.hdrWord, method := none, subchannel := none, value := none,
    argi := none }

/-- The record of a fault of a dispatch call (R153 to R156), or of the read of its argument word (R157: `value` none). -/
def State.callRecord (s : State) (c : FaultCode) (method : Word) (sc : SubCh) (value : Option Word) : FaultRecord :=
  { code := c, hdrAddr := some s.hdrAddr, hdrWord := some s.hdrWord, method := some method, subchannel := some sc,
    value := value, argi := some s.argi }

/-- Reset (R180), the only way out of a fault (R162): a new instance with the same parameters. Memory, translation map, the
host's plan and the trace are no state of the block and stay ("Reset emits no event"; log 4, log 15). -/
def State.resetBlock (s : State) : State :=
  { State.resetWith s.cfg with
    mem := s.mem, tmap := s.tmap, answers := s.answers, requests := s.requests, trace := s.trace }

/-! ## The binding table -/

/-- `BIND[sc]` (R10, R21). -/
def State.bindAt (s : State) (sc : SubCh) : Option Word := s.bind[sc.toNat]'(sc.isLt)

/-- `BIND[sc] <- Some(v)` (R10, R95). -/
def State.setBind (s : State) (sc : SubCh) (v : Word) : State :=
  { s with bind := s.bind.set sc.toNat (some v) sc.isLt }

/-! ## The macro upload -/

/-- `MACRO <- m` (R10). -/
def State.setUpload (s : State) (m : MacroUpload) : State := { s with upload := m }

/-- `flush(e, code)` (R94): the submission to the single 3D engine, whatever `BIND` holds, then `MACRO <- Idle`. -/
def State.flush (s : State) (entry : Word) (code : List Word) : State :=
  (s.emit (.submitMacro entry code)).setUpload .idle

/-! ## A `process` call -/

/-- The start of `process(base, count)` (R120, R134): one translation, made even when `count = 0` (D28). A translation that
fails gives no TRANSLATE event (log 13). -/
def State.startCall (s : State) (base : Addr) (count : Word) : State :=
  match s.translate base with
  | none => s.raise (noRunRecord .port)
  | some lin =>
    { s with
      cur := lin.toNat
      endAddr := lin.toNat + count.toNat * 4
      phase := .header
      trace := s.trace ++ [.translate base lin] }

/-- The normal end of a call (R130): DONE, and `PHASE = Idle`. CUR keeps its value (R25); END, HDR and ARGI keep theirs too
(DESIGN CHOICE, log 23). -/
def State.endCall (s : State) : State := { s with phase := .idle, trace := s.trace ++ [.done] }

/-- What the block does for one host action (R172; 20_memory.md R54). The step has already taken it off the list. -/
def State.takeRequest (s : State) (r : HostRequest) : State :=
  match r with
  | .process base count => s.startCall base count
  | .reset => s.resetBlock
  | .setByte a b => { s with mem := s.mem.setByte a.toNat b }
  | .setTranslation va lin => { s with tmap := setKey va.toNat lin s.tmap }
  | .setAnswer a w => { s with answers := setKey a.toNat w s.answers }

end Sys2Proof.Machine
end

