-- ==== Sys2Proof/Machine/Operands.lean ====
section
/-! DEFINITION. How an instruction comes by its operands: the word at the cursor (42_command_list_processor.md `readArg`,
R121), the method and the count of each call of a run (R131, R132), the widened immediate (30_encoding.md R65), and the
fetch of a header and of a call (R134). -/

namespace Sys2Proof.Machine

open Sys2Proof

/-- `v := MemRead(CUR, 4); CUR <- CUR + 4`, with its READ event (R171); none where the read fails, and then nothing has
changed (R41, R42; log 13). -/
def State.readAtCursor (s : State) : Option (Word × State) :=
  match s.memRead s.cur with
  | none => none
  | some w => some (w, { s with cur := s.cur + 4, trace := s.trace ++ [.read s.cur w] })

/-- `methodOf(h, i)` (R131), on naturals. The spec gives no method to the calls of an invalid header, which has none; the
header's own stands there. -/
def methodNat (h : Header) (i : Nat) : Nat :=
  match h.mode with
  | .increasingOld => h.fields.method.toNat + i
  | .increasing => h.fields.method.toNat + i
  | .nonIncreasingOld => h.fields.method.toNat
  | .nonIncreasing => h.fields.method.toNat
  | .increaseOnce => if i = 0 then h.fields.method.toNat else h.fields.method.toNat + 1
  | .inlineMode => h.fields.method.toNat
  | .invalid6 => h.fields.method.toNat
  | .invalid7 => h.fields.method.toNat

/-- The method of call `i` as the u32 the dispatcher takes, not truncated to 13 bits (R131, D15). -/
def methodOf (h : Header) (i : Nat) : Word := BitVec.ofNat 32 (methodNat h i)

/-- `remaining_params` of call `i` of a run of `n` calls: `n - i - 1` (R132). -/
def remainingOf (n i : Nat) : Word := BitVec.ofNat 32 (n - i - 1)

/-- `arg_count` as the number of calls of a run. -/
def argCountOf (h : Header) : Nat := h.fields.argCount.toNat

/-- `zext_32(inline_data)` (R65, D14). -/
def inlineValue (f : HeaderFields) : Word := f.inlineData.setWidth 32

/-- What a fetch answers: an instruction to run in a state, or a state in which the fetch has raised `F_PORT`. -/
inductive Fetched where
  | run (i : Instr) (s : State)
  | raised (s : State)
deriving DecidableEq, Repr

/-- The fetch of a header (R121): the word at the cursor, its address and itself kept for a fault record. A read that fails
raises `F_PORT` with an empty record (R157). -/
def State.fetchHeader (s : State) : Fetched :=
  match s.readAtCursor with
  | none => .raised (s.raise (noRunRecord .port))
  | some (w, t) => .run (decodeWord s.cfg.profile w) { t with hdrAddr := s.cur, hdrWord := w }

/-- The fetch of call `ARGI` of the run of `HDR` (R134 `Args(h, i)`): its argument word, then the call. A read that fails
raises `F_PORT`, recording the call whose argument it was (R157). -/
def State.fetchCall (s : State) : Fetched :=
  match s.readAtCursor with
  | none => .raised (s.raise (s.callRecord .port (methodOf s.hdr s.argi) s.hdr.fields.subchannel none))
  | some (w, t) =>
    .run
      (decodeCall (methodOf s.hdr s.argi)
        { subchannel := s.hdr.fields.subchannel, value := w, remaining := remainingOf (argCountOf s.hdr) s.argi })
      t

/-- The beginning of the run of header `h` (R134): `Args(h, 0)`, or, with no argument word, nothing at all (R135). -/
def State.startRun (s : State) (h : Header) : State :=
  if argCountOf h = 0 then s else { s with phase := .args, hdr := h, argi := 0 }

/-- After call `ARGI` (R134): `if i + 1 == n then Header else Args(h, i + 1)`. A call that raised a fault has left
`PHASE = Faulted`, and nothing follows it (R160). A run that ends leaves HDR and ARGI at its last call, `n - 1`: DESIGN CHOICE,
log 23; R28 gives them no meaning outside a run. -/
def State.advanceRun (s : State) : State :=
  match s.phase with
  | .args =>
    if s.argi + 1 = argCountOf s.hdr then { s with phase := .header } else { s with argi := s.argi + 1 }
  | .idle => s
  | .header => s
  | .faulted => s

end Sys2Proof.Machine
end

