-- ==== Sys2Proof/Machine/Methods.lean ====
section
/-! DEFINITION. The Method Dispatcher (41_method_dispatcher.md R90 to R104): one meaning for each method row of
opcode_table.json, and the dispatch of a call among them. Every meaning answers a next state; a fault of the block is one. -/

namespace Sys2Proof.Machine

open Sys2Proof

/-- SetGraphMacroEntry (R92): `MACRO <- Accumulating(value, [])` from any state. -/
def execSetGraphMacroEntry (a : CallArgs) (s : State) : Host.Outcome State Fault Refusal :=
  .next (s.setUpload (.accumulating a.value []))

/-- SetGraphMacroCodeArg (R93): append, and flush when no call of the run is left (R94). -/
def execSetGraphMacroCodeArg (a : CallArgs) (s : State) : Host.Outcome State Fault Refusal :=
  match s.upload with
  | .idle => .next (s.raise (s.callRecord .macroNoEntry 0x46 a.subchannel (some a.value)))
  | .accumulating e c =>
    if a.remaining = 0 then .next (s.flush e (c ++ [a.value]))
    else .next (s.setUpload (.accumulating e (c ++ [a.value])))

/-- BindObject (R95): the raw class value into a free slot; a bound slot faults, whatever it holds. -/
def execBindObject (a : CallArgs) (s : State) : Host.Outcome State Fault Refusal :=
  match s.bindAt a.subchannel with
  | some _ => .next (s.raise (s.callRecord .bindConflict 0x00 a.subchannel (some a.value)))
  | none => .next (s.setBind a.subchannel a.value)

/-- SetGraphMacroCode (R96): the diagnostic alone. -/
def execSetGraphMacroCode (a : CallArgs) (s : State) : Host.Outcome State Fault Refusal :=
  .next (s.diagUnimplemented 0x45 a)

/-- Any other reserved control method (R97): the diagnostic alone. -/
def execOtherControl (method : Word) (a : CallArgs) (s : State) : Host.Outcome State Fault Refusal :=
  .next (s.diagUnimplemented method a)

/-- The write a forwarded method is, by the slot's class (R98 to R101); none for an unknown class (R102). Only the 3D
engine is passed the count (R99). -/
def forwardEvent (c : Config) (cls : Word) (method : Word) (a : CallArgs) : Option Event :=
  if cls = classMaxwell3D then some (.write3D method a.value a.remaining)
  else if cls = c.classFermiTwoD then some (.write2D method a.value)
  else if cls = c.classMaxwellCompute then some (.writeCompute method a.value)
  else none

/-- Engine forward (R98): the unbound check first, then the closed set of classes. -/
def execEngineForward (method : Word) (a : CallArgs) (s : State) : Host.Outcome State Fault Refusal :=
  match s.bindAt a.subchannel with
  | none => .next (s.raise (s.callRecord .unboundSubchannel method a.subchannel (some a.value)))
  | some cls =>
    match forwardEvent s.cfg cls method a with
    | some e => .next (s.emit e)
    | none => .next (s.raise (s.callRecord .unknownEngine method a.subchannel (some a.value)))

/-- `dispatch(method, subchannel, value, remaining_params)` (R90): one of the behaviours above, by `classify` (R91). -/
def dispatch (method : Word) (a : CallArgs) (s : State) : Host.Outcome State Fault Refusal :=
  match classify method with
  | .macroEntry => execSetGraphMacroEntry a s
  | .macroArg => execSetGraphMacroCodeArg a s
  | .bind => execBindObject a s
  | .otherControl => if method = 0x45 then execSetGraphMacroCode a s else execOtherControl method a s
  | .engineForward => execEngineForward method a s

end Sys2Proof.Machine
end

