-- ==== Sys2Proof/Machine/Packets.lean ====
section
/-! DEFINITION. The Command List Processor's expansion of a header (42_command_list_processor.md R122 to R128), in the
small-step form of R134: the meaning of a header is what happens once its word has been read; each argument word of its run
is then one step, and the run's calls are told by `methodOf` and `remainingOf` from the mode that the meaning leaves in HDR. -/

namespace Sys2Proof.Machine

open Sys2Proof

/-- IncreasingOld (R123): the run of calls to `m`, `m + 1`, … -/
def execIncreasingOld (f : HeaderFields) (s : State) : Host.Outcome State Fault Refusal :=
  .next (s.startRun { fields := f, mode := .increasingOld })

/-- Increasing (R124): the run of calls to `m`, `m + 1`, … -/
def execIncreasing (f : HeaderFields) (s : State) : Host.Outcome State Fault Refusal :=
  .next (s.startRun { fields := f, mode := .increasing })

/-- NonIncreasingOld (R125): the run of calls to `m`. -/
def execNonIncreasingOld (f : HeaderFields) (s : State) : Host.Outcome State Fault Refusal :=
  .next (s.startRun { fields := f, mode := .nonIncreasingOld })

/-- NonIncreasing (R126): the run of calls to `m`. -/
def execNonIncreasing (f : HeaderFields) (s : State) : Host.Outcome State Fault Refusal :=
  .next (s.startRun { fields := f, mode := .nonIncreasing })

/-- IncreaseOnce (R127): the run of calls to `m`, `m + 1`, `m + 1`, …; no argument word is a contract violation, raised
before any read or call (R152). -/
def execIncreaseOnce (f : HeaderFields) (s : State) : Host.Outcome State Fault Refusal :=
  if f.argCount.toNat = 0 then .next (s.raise (s.headerRecord .increaseOnceZero))
  else .next (s.startRun { fields := f, mode := .increaseOnce })

/-- Inline (R128): one call, index 0 of its run (R132), with the immediate as its value. -/
def execInlineHeader (f : HeaderFields) (s : State) : Host.Outcome State Fault Refusal :=
  dispatch (methodOf { fields := f, mode := .inlineMode } 0)
    { subchannel := f.subchannel, value := inlineValue f, remaining := 0 }
    { s with hdr := { fields := f, mode := .inlineMode }, argi := 0 }

/-- Mode code 6 (R122): `F_UNKNOWN_MODE` (R151), always. -/
def execInvalidMode6 (_f : HeaderFields) (s : State) : Host.Outcome State Fault Refusal :=
  .next (s.raise (s.headerRecord .unknownMode))

/-- Mode code 7 (R122): `F_UNKNOWN_MODE` (R151), always. -/
def execInvalidMode7 (_f : HeaderFields) (s : State) : Host.Outcome State Fault Refusal :=
  .next (s.raise (s.headerRecord .unknownMode))

end Sys2Proof.Machine
end

