-- ==== Sys2Proof/Machine/Dispatch.lean ====
section
/-! DEFINITION. One arm for each row of opcode_table.json. -/

namespace Sys2Proof.Machine

open Sys2Proof

/-- What an instruction does: a header once its word has been read (R121 to R128), a method call once its argument word has
been read (R90 to R102). -/
def exec (i : Instr) (s : State) : Host.Outcome State Fault Refusal :=
  match i with
  | .increasingOld f => Sys2Proof.Machine.execIncreasingOld f s
  | .increasing f => Sys2Proof.Machine.execIncreasing f s
  | .nonIncreasingOld f => Sys2Proof.Machine.execNonIncreasingOld f s
  | .nonIncreasing f => Sys2Proof.Machine.execNonIncreasing f s
  | .increaseOnce f => Sys2Proof.Machine.execIncreaseOnce f s
  | .inlineHeader f => Sys2Proof.Machine.execInlineHeader f s
  | .invalidMode6 f => Sys2Proof.Machine.execInvalidMode6 f s
  | .invalidMode7 f => Sys2Proof.Machine.execInvalidMode7 f s
  | .setGraphMacroEntry a => Sys2Proof.Machine.execSetGraphMacroEntry a s
  | .setGraphMacroCodeArg a => Sys2Proof.Machine.execSetGraphMacroCodeArg a s
  | .bindObject a => Sys2Proof.Machine.execBindObject a s
  | .setGraphMacroCode a => Sys2Proof.Machine.execSetGraphMacroCode a s
  | .otherControl method a => Sys2Proof.Machine.execOtherControl method a s
  | .engineForward method a => Sys2Proof.Machine.execEngineForward method a s

end Sys2Proof.Machine
end

