-- ==== Sys2Proof/Machine/Flags.lean ====
section
/-! DEFINITION. The block has no flags, condition codes or predicates (10_state.md R30). What a host can read in their place:
the status (60_exceptions.md R172), the numbers of the codes (60_exceptions.md R150, D6), and when a call has ended (R174). -/

namespace Sys2Proof.Machine

open Sys2Proof

/-- The status read: `PHASE` and `FAULT`, and nothing else (R30, R172). -/
def State.hostStatus (s : State) : Phase × Option FaultRecord := (s.phase, s.fault)

/-- The numbers of the fault codes (R151 to R157). -/
def faultNumber (c : FaultCode) : Nat :=
  match c with
  | .unknownMode => 1
  | .increaseOnceZero => 2
  | .bindConflict => 3
  | .unboundSubchannel => 4
  | .unknownEngine => 5
  | .macroNoEntry => 6
  | .port => 7

/-- The number of the diagnostic (R158). -/
def diagNumber (d : DiagKind) : Nat :=
  match d with
  | .unimplementedControl => 1

/-- A call is active (R27, R174: "not final"). -/
def Phase.active (p : Phase) : Bool :=
  match p with
  | .header => true
  | .args => true
  | .idle => false
  | .faulted => false

/-- A successful end: `PHASE = Idle` (R174: "A faulted state is final but never a successful end"). -/
def Phase.endedWell (p : Phase) : Bool :=
  match p with
  | .idle => true
  | .header => false
  | .args => false
  | .faulted => false

end Sys2Proof.Machine
end

