-- ==== Sys2Proof/Machine/Placement.lean ====
section
/-! DEFINITION. Putting one instruction where the next step fetches (log 16, log 17): a header word at the cursor of an
active call, or a run of one call whose argument word, zero, lies at the cursor. No rule of the block uses these: the host
that checks the model does. -/

namespace Sys2Proof.Machine

open Sys2Proof

/-- Where the word is put: the cursor, or address 0 where no word at the cursor can be read. -/
def State.placeAddr (s : State) : Nat := if s.cur % 4 = 0 ∧ s.cur + 4 ≤ addrLimit then s.cur else 0

/-- The region's end, behind the placed word. -/
def State.placeEnd (s : State) : Nat := if s.placeAddr < s.endAddr then s.endAddr else s.placeAddr + 4

/-- The port made to answer a word at an address: its four bytes, or its answer there. -/
def State.placeWord (s : State) (a : Nat) (w : Word) : State :=
  match s.cfg.port with
  | .memory o _ => { s with mem := Memory.setWord o s.mem a w }
  | .table => { s with answers := setKey a (some w) s.answers }

/-- An active call whose next word is the header word `w`. -/
def State.placeHeader (s : State) (w : Word) : State :=
  { s.placeWord s.placeAddr w with
    phase := .header
    cur := s.placeAddr
    endAddr := s.placeEnd }

/-- The header of a run of one call to a method of the control range on subchannel 0; under `PROFILE_UPSTREAM` the count is
also the immediate (R63). -/
def oneCallHeader (p : HdrProfile) (method : Word) : Header :=
  { fields :=
      { method := method.setWidth 13
        subchannel := 0
        argCount := 1
        inlineData := match p with
          | .doc => 0
          | .upstream => 1 }
    mode := .nonIncreasing }

/-- An active call whose next word is the argument word 0 of the one call of a run. -/
def State.placeCall (s : State) (method : Word) : State :=
  { s.placeWord s.placeAddr 0 with
    phase := .args
    cur := s.placeAddr
    endAddr := s.placeEnd
    hdr := oneCallHeader s.cfg.profile method
    argi := 0
    hdrAddr := s.placeAddr
    hdrWord := encodeHeader s.cfg.profile (oneCallHeader s.cfg.profile method) }

/-- A table word placed in the format `decodeTableWord` reads it in. -/
def State.placeTableWord (s : State) (w : Word) : State :=
  if isMethodTableWord w then s.placeCall w else s.placeHeader w

end Sys2Proof.Machine
end

