-- ==== Sys2Proof/Machine/Step.lean ====
section
/-! DEFINITION. One step, the small-step form of 42_command_list_processor.md R134: at most one word read and at most one
dispatch call made. -/

namespace Sys2Proof.Machine

open Sys2Proof

/-- In `Idle` (R173, R134): the host's next action, if there is one; without one the block does nothing (log 9). -/
def stepIdle (s : State) : Host.Outcome State Fault Refusal :=
  match s.requests with
  | [] => .next s
  | r :: rest => .next (({ s with requests := rest } : State).takeRequest r)

/-- In `Faulted` (R162): only reset leads out; `process` is not taken; the port's data may change (log 10 to 12). -/
def stepFaulted (s : State) : Host.Outcome State Fault Refusal :=
  match s.requests with
  | [] => .fault .stuckUntilReset
  | .process _ _ :: _ => .refused .processWhileFaulted
  | .reset :: rest => .next (({ s with requests := rest } : State).takeRequest .reset)
  | .setByte a b :: rest => .next (({ s with requests := rest } : State).takeRequest (.setByte a b))
  | .setTranslation va lin :: rest => .next (({ s with requests := rest } : State).takeRequest (.setTranslation va lin))
  | .setAnswer a w :: rest => .next (({ s with requests := rest } : State).takeRequest (.setAnswer a w))

/-- In `Header` (R121, R130, R134): the bound is tested here and nowhere else; then one header. -/
def stepHeader (s : State) : Host.Outcome State Fault Refusal :=
  if s.cur < s.endAddr then
    match s.fetchHeader with
    | .raised t => .next t
    | .run i t => exec i t
  else .next s.endCall

/-- What the step adds after a call of a run. -/
def afterCall (o : Host.Outcome State Fault Refusal) : Host.Outcome State Fault Refusal :=
  match o with
  | .next t => .next t.advanceRun
  | .fault r => .fault r
  | .refused r => .refused r

/-- In `Args` (R129, R134): one argument word, one call, and on to the next call or header. -/
def stepArgs (s : State) : Host.Outcome State Fault Refusal :=
  match s.fetchCall with
  | .raised t => .next t
  | .run i t => afterCall (exec i t)

/-- One step (R134; log 20). -/
def step (s : State) : Host.Outcome State Fault Refusal :=
  match s.phase with
  | .idle => stepIdle s
  | .header => stepHeader s
  | .args => stepArgs s
  | .faulted => stepFaulted s

/-- The state whose very next step fetches and runs the instruction that `decodeTableWord nbits w` reads (log 16, log 17). -/
def State.withFetchWord (s : State) (nbits w : Nat) : State :=
  s.placeTableWord (BitVec.ofNat 32 (w % 2 ^ nbits))

end Sys2Proof.Machine
end

