-- ==== Sys2Proof/Machine/Assembler.lean ====
section
/-! DEFINITION. The spec's textual notation for command streams (30_encoding.md R71, R72; D23). -/

namespace Sys2Proof.Machine

open Sys2Proof

/-- One line of the notation (R71). Numbers are as written; the assembler refuses those that do not fit. -/
inductive AsmLine where
  | inco (sc m : Nat) (vs : List Word)
  | inc (sc m : Nat) (vs : List Word)
  | ninco (sc m : Nat) (vs : List Word)
  | ninc (sc m : Nat) (vs : List Word)
  | once (sc m : Nat) (vs : List Word)
  | imm (sc m d : Nat)
  /-- `.word w` -/
  | raw (w : Word)
deriving DecidableEq, Repr

/-- Why the assembler refuses a line (R71, R72). -/
inductive AsmError where
  | argumentsDoNotFit
  | immediateDoesNotFit
  | methodDoesNotFit
  | subchannelDoesNotFit
  | onceWithoutArgument
  | macroWithoutCode
deriving DecidableEq, Repr

/-- The largest `arg_count` of a profile (R61, R63). -/
def maxArgCount (p : HdrProfile) : Nat :=
  match p with
  | .doc => 3
  | .upstream => 0x1FFF

/-- The largest immediate of a profile (R61, R63). -/
def maxInline (p : HdrProfile) : Nat :=
  match p with
  | .doc => 0x7FF
  | .upstream => 0x1FFF

/-- The header word of a line; the field a mode ignores assembles as zero (R71). -/
def asmHeader (p : HdrProfile) (mode : Mode) (sc m n d : Nat) : Except AsmError Word :=
  if 7 < sc then .error .subchannelDoesNotFit
  else if 0x1FFF < m then .error .methodDoesNotFit
  else if maxArgCount p < n then .error .argumentsDoNotFit
  else if maxInline p < d then .error .immediateDoesNotFit
  else
    .ok (encodeHeader p
      { fields :=
          { method := BitVec.ofNat 13 m
            subchannel := BitVec.ofNat 3 sc
            argCount := BitVec.ofNat 13 n
            inlineData := BitVec.ofNat 13 d }
        mode := mode })

/-- A header and its argument words. -/
def asmPacket (p : HdrProfile) (mode : Mode) (sc m : Nat) (vs : List Word) : Except AsmError (List Word) :=
  match asmHeader p mode sc m vs.length 0 with
  | .ok w => .ok (w :: vs)
  | .error e => .error e

/-- The words of one line (R71). -/
def assembleLine (p : HdrProfile) (l : AsmLine) : Except AsmError (List Word) :=
  match l with
  | .inco sc m vs => asmPacket p .increasingOld sc m vs
  | .inc sc m vs => asmPacket p .increasing sc m vs
  | .ninco sc m vs => asmPacket p .nonIncreasingOld sc m vs
  | .ninc sc m vs => asmPacket p .nonIncreasing sc m vs
  | .once sc m vs => if vs.isEmpty then .error .onceWithoutArgument else asmPacket p .increaseOnce sc m vs
  | .imm sc m d =>
    match asmHeader p .inlineMode sc m 0 d with
    | .ok w => .ok [w]
    | .error e => .error e
  | .raw w => .ok [w]

/-- The words of a stream, line after line. -/
def assemble (p : HdrProfile) (ls : List AsmLine) : Except AsmError (List Word) :=
  match ls with
  | [] => .ok []
  | l :: rest =>
    match assembleLine p l, assemble p rest with
    | .ok ws, .ok more => .ok (ws ++ more)
    | .error e, _ => .error e
    | .ok _, .error e => .error e

/-- `BIND sc, cls` (R72). -/
def asmBind (sc : Nat) (cls : Word) : AsmLine := .inco sc 0x000 [cls]

/-- `MENTRY e` (R72). -/
def asmMacroEntry (e : Word) : AsmLine := .inco 0 0x047 [e]

/-- `MCODE` with at least one word (R72). -/
def asmMacroCode (ws : List Word) : Except AsmError AsmLine :=
  if ws.isEmpty then .error .macroWithoutCode else .ok (.ninc 0 0x046 ws)

/-- `MUPLOAD e` with its words: `MENTRY e`, then `MCODE` (R72). -/
def asmMacroUpload (e : Word) (ws : List Word) : Except AsmError (List AsmLine) :=
  match asmMacroCode ws with
  | .ok l => .ok [asmMacroEntry e, l]
  | .error err => .error err

/-- A stream laid out in memory, its first word at `a`. -/
def Memory.setWords (o : ByteOrder) (m : Memory) (a : Nat) (ws : List Word) : Memory :=
  match ws with
  | [] => m
  | w :: rest => Memory.setWords o (Memory.setWord o m a w) (a + 4) rest

end Sys2Proof.Machine
end

