-- ==== Sys2Proof/Machine/Loop.lean ====
section
/-! DEFINITION. The processing loop as 42_command_list_processor.md writes it (R120, R121, R123 to R128): whole runs, whole
header cycles and a whole `process` call, beside the one-word steps of R134. "A model may take whole header cycles or whole
calls as one step instead; the sequence of port calls and events is the same" (R134): the statements say that it is. -/

namespace Sys2Proof.Machine

open Sys2Proof

/-- Go on with the next part of the pseudocode unless a fault has ended the call (R160). -/
def unlessFaulted (o : Host.Outcome State Fault Refusal) (next : State → Host.Outcome State Fault Refusal) :
    Host.Outcome State Fault Refusal :=
  match o with
  | .next t => if t.phase = .faulted then .next t else next t
  | .fault r => .fault r
  | .refused r => .refused r

/-- `for i in i .. : v := readArg(); dispatch(methodOf(h, i), sc, v, n - i - 1)`, `k` calls of the run being left
(R123 to R127, R129). ARGI is the index of the last call when the run is over (DESIGN CHOICE, log 23). -/
def runCalls (h : Header) (k i : Nat) (s : State) : Host.Outcome State Fault Refusal :=
  match k with
  | 0 => .next { s with phase := .header }
  | k + 1 =>
    let s := { s with argi := i }
    match s.readAtCursor with
    | none => .next (s.raise (s.callRecord .port (methodOf h i) h.fields.subchannel none))
    | some (v, t) =>
      unlessFaulted
        (dispatch (methodOf h i)
          { subchannel := h.fields.subchannel, value := v, remaining := remainingOf (argCountOf h) i } t)
        (runCalls h k (i + 1))

/-- The run of a header that has argument words; without one, nothing (R135). -/
def wholeRun (h : Header) (s : State) : Host.Outcome State Fault Refusal :=
  if argCountOf h = 0 then .next s
  else runCalls h (argCountOf h) 0 { s with phase := .args, hdr := h }

/-- `step_header()` (R121), the run of the header included. -/
def headerCycle (s : State) : Host.Outcome State Fault Refusal :=
  match s.readAtCursor with
  | none => .next (s.raise (noRunRecord .port))
  | some (w, t) =>
    let h := decodeHeader s.cfg.profile w
    let t := { t with hdrAddr := s.cur, hdrWord := w }
    match h.mode with
    | .increasingOld => wholeRun h t
    | .increasing => wholeRun h t
    | .nonIncreasingOld => wholeRun h t
    | .nonIncreasing => wholeRun h t
    | .increaseOnce =>
      if argCountOf h = 0 then .next (t.raise (t.headerRecord .increaseOnceZero)) else wholeRun h t
    | .inlineMode =>
      dispatch (methodOf h 0)
        { subchannel := h.fields.subchannel, value := inlineValue h.fields, remaining := 0 } { t with hdr := h, argi := 0 }
    | .invalid6 => .next (t.raise (t.headerRecord .unknownMode))
    | .invalid7 => .next (t.raise (t.headerRecord .unknownMode))

/-- `while CUR < END: step_header()`, then DONE (R120, R130). `k` bounds the tests of the loop. -/
def headerLoop (k : Nat) (s : State) : Host.Outcome State Fault Refusal :=
  match k with
  | 0 => .next s
  | k + 1 => if s.cur < s.endAddr then unlessFaulted (headerCycle s) (headerLoop k) else .next s.endCall

/-- `process(base, count)` (R120). Every header cycle moves the cursor by at least one word, so the bound of the loop is
tested at most `count + 1` times. -/
def processCall (base : Addr) (count : Word) (s : State) : Host.Outcome State Fault Refusal :=
  unlessFaulted (.next (s.startCall base count)) (headerLoop (count.toNat + 1))

end Sys2Proof.Machine
end

