-- ==== Sys2Proof/Safety.lean ====
section
/-! DEFINITION. What the statements speak of: the invariants of the machine's states, the order of its reads, and what a
call of the dispatcher may touch. -/

namespace Sys2Proof.Machine

open Sys2Proof

/-- The modes whose headers have a run of argument words (R123 to R127). -/
def modeHasRun (m : Mode) : Bool :=
  match m with
  | .increasingOld => true
  | .increasing => true
  | .nonIncreasingOld => true
  | .nonIncreasing => true
  | .increaseOnce => true
  | .inlineMode => false
  | .invalid6 => false
  | .invalid7 => false

/-- The run in progress is one of a header that was read: HDR is the decoding of its word, its mode has a run, and ARGI is
the index of a call of it (R28, R134). -/
def State.runWf (s : State) : Prop :=
  s.phase = .args →
    s.hdr = decodeHeader s.cfg.profile s.hdrWord ∧ modeHasRun s.hdr.mode = true ∧ s.argi < argCountOf s.hdr

/-- `FAULT` holds a record exactly while `PHASE = Faulted` (R29, R160, R162). -/
def State.faultWf (s : State) : Prop := s.phase = .faulted ↔ s.fault.isSome = true

/-- The invariant of the machine: the port's memory, translation map and answers are canonical, the class values are distinct (R7),
the run in progress and the fault record are as they should be. -/
structure State.Inv (s : State) : Prop where
  mem_wf : Memory.wf s.mem
  tmap_wf : keysWf s.tmap
  answers_wf : keysWf s.answers
  cfg_wf : s.cfg.wf = true
  run_wf : s.runWf
  fault_wf : s.faultWf

/-- The macro code received so far. -/
def MacroUpload.pending (m : MacroUpload) : List Word :=
  match m with
  | .idle => []
  | .accumulating _ c => c

/-- No code word is pending in `Idle` or at a header position, and inside a run pending code is about to be added to, flushed or
discarded: the next call goes to 0x46 or 0x47 (R187). Of a faulted block it says nothing: pending code stays there (R161). -/
def State.codeSettled (s : State) : Prop :=
  match s.phase with
  | .idle => s.upload.pending = []
  | .header => s.upload.pending = []
  | .args => s.upload.pending ≠ [] → methodOf s.hdr s.argi = 0x46 ∨ methodOf s.hdr s.argi = 0x47
  | .faulted => True

/-- The addresses of the READ events of a trace, oldest first. -/
def readAddrs (es : List Event) : List Nat :=
  es.filterMap fun e => match e with
    | .read a _ => some a
    | _ => none

/-- An event by which the dispatcher acts on an engine or reports (R90: "at most one engine or macro event or one
diagnostic"). -/
def Event.ofDispatch (e : Event) : Bool :=
  match e with
  | .write2D _ _ => true
  | .write3D _ _ _ => true
  | .writeCompute _ _ => true
  | .submitMacro _ _ => true
  | .diag _ _ _ _ => true
  | .translate _ _ => false
  | .read _ _ => false
  | .done => false
  | .fault _ _ => false

end Sys2Proof.Machine
end

