-- ==== Sys2Proof/Certificates/Slice0/Obligations.lean ====
section
/-! DEFINITION. The statements about the machine, from the spec's numbered rules. A statement about every state is about every
value of the parameters (`cfg`) too. -/

open Sys2Proof Sys2Proof.Machine

/-! ## Encoding -/

/-- Decode and encode agree (R61, R63, R80): a header instruction that a profile can hold reads back from its word, with every
operand at every value, under both profiles. -/
def Obligations.HeaderDecodingInvertsEncoding : Prop :=
  ∀ (p : HdrProfile) (i : Instr), i.wf p = true → i.header? ≠ none → decodeWord p (encode p i) = i

/-- Every one of the 2^32 words is a header (R84), holds every field it decodes to, and is the encoding of that header: no
bit is dropped and no two words decode alike. -/
def Obligations.EveryWordIsItsHeadersEncoding : Prop :=
  ∀ (p : HdrProfile) (w : Word),
    (decodeWord p w).wf p = true ∧ (decodeWord p w).header? = some (decodeHeader p w) ∧ encode p (decodeWord p w) = w

/-- A method call reads back from its method value and operands, and every method value is some well-formed call with that
value and those operands (R68, R69, R73). -/
def Obligations.CallClassifyingInvertsEncoding : Prop :=
  (∀ (p : HdrProfile) (i : Instr) (m : Word) (a : CallArgs), i.wf p = true → i.call? = some (m, a) →
    encode p i = m ∧ decodeCall m a = i) ∧
  (∀ (p : HdrProfile) (m : Word) (a : CallArgs), (decodeCall m a).wf p = true ∧ (decodeCall m a).call? = some (m, a))

/-- The bit range of every header field as a number, under both profiles (R61, R63, R80, R81). -/
def Obligations.HeaderFieldsLieAtFixedBits : Prop :=
  ∀ w : Word,
    (decodeHeader .doc w).fields.method.toNat = w.toNat % 2 ^ 13 ∧
    (decodeHeader .doc w).fields.subchannel.toNat = w.toNat / 2 ^ 13 % 2 ^ 3 ∧
    (decodeHeader .doc w).fields.argCount.toNat = w.toNat / 2 ^ 16 % 2 ^ 2 ∧
    (decodeHeader .doc w).fields.inlineData.toNat = w.toNat / 2 ^ 18 % 2 ^ 11 ∧
    (modeCode .doc (decodeHeader .doc w).mode).toNat = w.toNat / 2 ^ 29 ∧
    (decodeHeader .upstream w).fields.method.toNat = w.toNat % 2 ^ 13 ∧
    (decodeHeader .upstream w).fields.subchannel.toNat = w.toNat / 2 ^ 13 % 2 ^ 3 ∧
    (decodeHeader .upstream w).fields.argCount.toNat = w.toNat / 2 ^ 16 % 2 ^ 13 ∧
    (decodeHeader .upstream w).fields.inlineData.toNat = w.toNat / 2 ^ 16 % 2 ^ 13 ∧
    (modeCode .upstream (decodeHeader .upstream w).mode).toNat = w.toNat / 2 ^ 29

/-- The eight mode codes of `PROFILE_DOC` (R62, R82), and of `PROFILE_UPSTREAM`, where 4 and 5 are exchanged (R63; the spec's
general knowledge, log 22); an invalid mode keeps its raw code, 6 or 7, in both. -/
def Obligations.ModeCodesNameTheModes : Prop :=
  modeOf .doc 0 = .increasingOld ∧ modeOf .doc 1 = .increasing ∧ modeOf .doc 2 = .nonIncreasingOld ∧
  modeOf .doc 3 = .nonIncreasing ∧ modeOf .doc 4 = .increaseOnce ∧ modeOf .doc 5 = .inlineMode ∧
  modeOf .doc 6 = .invalid6 ∧ modeOf .doc 7 = .invalid7 ∧
  modeOf .upstream 0 = .increasingOld ∧ modeOf .upstream 1 = .increasing ∧ modeOf .upstream 2 = .nonIncreasingOld ∧
  modeOf .upstream 3 = .nonIncreasing ∧ modeOf .upstream 4 = .inlineMode ∧ modeOf .upstream 5 = .increaseOnce ∧
  modeOf .upstream 6 = .invalid6 ∧ modeOf .upstream 7 = .invalid7

/-- R69 (and the table of R68): the method value alone selects the class and the instruction, on any operands; the subchannel
plays no part. -/
def Obligations.MethodNumberSelectsTheBehaviour : Prop :=
  ∀ (m : Word) (a : CallArgs),
    (m.toNat = 0x000 → classify m = .bind ∧ decodeCall m a = .bindObject a) ∧
    (0x001 ≤ m.toNat ∧ m.toNat ≤ 0x044 → classify m = .otherControl ∧ decodeCall m a = .otherControl m a) ∧
    (m.toNat = 0x045 → classify m = .otherControl ∧ decodeCall m a = .setGraphMacroCode a) ∧
    (m.toNat = 0x046 → classify m = .macroArg ∧ decodeCall m a = .setGraphMacroCodeArg a) ∧
    (m.toNat = 0x047 → classify m = .macroEntry ∧ decodeCall m a = .setGraphMacroEntry a) ∧
    (0x048 ≤ m.toNat ∧ m.toNat ≤ 0x0FF → classify m = .otherControl ∧ decodeCall m a = .otherControl m a) ∧
    (0x100 ≤ m.toNat → classify m = .engineForward ∧ decodeCall m a = .engineForward m a)

/-- The words of 95_test_vectors.md section 2 for each mode, with their fields, and one upstream word. -/
def Obligations.SpecWordsDecodeAsTabled : Prop :=
  decodeWord .doc 0x00012000 = .increasingOld ⟨0x000, 1, 1, 0⟩ ∧
  decodeWord .doc 0x20030200 = .increasing ⟨0x200, 0, 3, 0⟩ ∧
  decodeWord .doc 0x5FFC0123 = .nonIncreasingOld ⟨0x123, 0, 0, 0x7FF⟩ ∧
  decodeWord .doc 0x60030046 = .nonIncreasing ⟨0x046, 0, 3, 0⟩ ∧
  decodeWord .doc 0x80026100 = .increaseOnce ⟨0x100, 3, 2, 0⟩ ∧
  decodeWord .doc 0xB6940200 = .inlineHeader ⟨0x200, 0, 0, 0x5A5⟩ ∧
  decodeWord .doc 0xC0000000 = .invalidMode6 ⟨0, 0, 0, 0⟩ ∧
  decodeWord .doc 0xFFFFFFFF = .invalidMode7 ⟨0x1FFF, 7, 3, 0x7FF⟩ ∧
  decodeWord .upstream 0xB6940200 = .increaseOnce ⟨0x200, 0, 0x1694, 0x1694⟩

/-- The bytes of a stream (R43, R64): a decoder takes four bytes and leaves the rest, and refuses, by name, only fewer. -/
def Obligations.DecodingTakesFourBytes : Prop :=
  ∀ (p : HdrProfile) (o : ByteOrder) (bs : List Byte),
    (bs.length < 4 → decode p o bs = .error .fewerThanFourBytes) ∧
    (∀ (w : Word), decode p o (bytesOfWord o w ++ bs) = .ok (decodeWord p w, bs))

/-- R71 under `PROFILE_DOC`: the assembler takes an `INC` line exactly when its numbers fit, and its header is the Increasing
header of those numbers with the ignored immediate zero, followed by the values. -/
def Obligations.AssemblerWritesIncreasingPackets : Prop :=
  ∀ (sc m : Nat) (vs ws : List Word),
    assembleLine .doc (.inc sc m vs) = .ok ws ↔
      sc ≤ 7 ∧ m ≤ 0x1FFF ∧ vs.length ≤ 3 ∧
      ∃ w, ws = w :: vs ∧
        decodeWord .doc w = .increasing ⟨BitVec.ofNat 13 m, BitVec.ofNat 3 sc, BitVec.ofNat 13 vs.length, 0⟩

/-! ## Method calls -/

/-- SetGraphMacroEntry (R92): `MACRO <- Accumulating(value, [])` from any state, and nothing else. -/
def Obligations.SetGraphMacroEntryStartsAnUpload : Prop :=
  ∀ (a : CallArgs) (s : State),
    exec (.setGraphMacroEntry a) s = .next { s with upload := .accumulating a.value [] }

/-- SetGraphMacroCodeArg and the flush (R93, R94): append; at the last call of the run submit the code in arrival order and
return to Idle; with no entry fault (R156). Nothing else changes, whatever the bindings are. -/
def Obligations.SetGraphMacroCodeArgAppendsOrFlushes : Prop :=
  faultNumber .macroNoEntry = 6 ∧
  ∀ (a : CallArgs) (s : State),
    (∀ e c, s.upload = .accumulating e c → a.remaining ≠ 0 →
      exec (.setGraphMacroCodeArg a) s = .next { s with upload := .accumulating e (c ++ [a.value]) }) ∧
    (∀ e c, s.upload = .accumulating e c → a.remaining = 0 →
      exec (.setGraphMacroCodeArg a) s =
        .next { s with upload := .idle, trace := s.trace ++ [.submitMacro e (c ++ [a.value])] }) ∧
    (s.upload = .idle →
      exec (.setGraphMacroCodeArg a) s =
        .next (s.raise
          { code := .macroNoEntry, hdrAddr := some s.hdrAddr, hdrWord := some s.hdrWord, method := some 0x46,
            subchannel := some a.subchannel, value := some a.value, argi := some s.argi }))

/-- BindObject (R95): a free slot takes the raw value, every other slot and everything else stays; a bound slot faults
`F_BIND_CONFLICT` whatever it holds and whatever the value is (R153). -/
def Obligations.BindObjectFillsAFreeSlotOnce : Prop :=
  faultNumber .bindConflict = 3 ∧
  ∀ (a : CallArgs) (s : State),
    (s.bindAt a.subchannel = none →
      ∃ t, exec (.bindObject a) s = .next t ∧ t = { s with bind := t.bind } ∧
        ∀ sc, t.bindAt sc = if sc = a.subchannel then some a.value else s.bindAt sc) ∧
    (s.bindAt a.subchannel ≠ none →
      exec (.bindObject a) s =
        .next (s.raise
          { code := .bindConflict, hdrAddr := some s.hdrAddr, hdrWord := some s.hdrWord, method := some 0x00,
            subchannel := some a.subchannel, value := some a.value, argi := some s.argi }))

/-- SetGraphMacroCode and the other control methods (R96, R97): the diagnostic alone, which is the only one there is (R158). -/
def Obligations.UnimplementedControlMethodsOnlyDiagnose : Prop :=
  (∀ d : DiagKind, d = .unimplementedControl ∧ diagNumber d = 1) ∧
  ∀ (a : CallArgs) (s : State),
    exec (.setGraphMacroCode a) s =
      .next { s with trace := s.trace ++ [.diag .unimplementedControl 0x45 a.subchannel a.value] } ∧
    ∀ m, isOtherControl m = true →
      exec (.otherControl m a) s =
        .next { s with trace := s.trace ++ [.diag .unimplementedControl m a.subchannel a.value] }

/-- Engine forward (R98 to R102), for distinct class values (R7): one write to the engine the slot's class names, the count
to the 3D engine alone; an unbound slot and an unknown class fault (R154, R155). -/
def Obligations.EngineForwardGoesThroughTheBinding : Prop :=
  faultNumber .unboundSubchannel = 4 ∧ faultNumber .unknownEngine = 5 ∧
  ∀ (m : Word) (a : CallArgs) (s : State), s.cfg.wf = true → 0x100 ≤ m.toNat →
    (s.bindAt a.subchannel = some classMaxwell3D →
      exec (.engineForward m a) s = .next { s with trace := s.trace ++ [.write3D m a.value a.remaining] }) ∧
    (s.bindAt a.subchannel = some s.cfg.classFermiTwoD →
      exec (.engineForward m a) s = .next { s with trace := s.trace ++ [.write2D m a.value] }) ∧
    (s.bindAt a.subchannel = some s.cfg.classMaxwellCompute →
      exec (.engineForward m a) s = .next { s with trace := s.trace ++ [.writeCompute m a.value] }) ∧
    (∀ c, s.bindAt a.subchannel = some c → c ≠ classMaxwell3D → c ≠ s.cfg.classFermiTwoD →
      c ≠ s.cfg.classMaxwellCompute →
      exec (.engineForward m a) s =
        .next (s.raise
          { code := .unknownEngine, hdrAddr := some s.hdrAddr, hdrWord := some s.hdrWord, method := some m,
            subchannel := some a.subchannel, value := some a.value, argi := some s.argi })) ∧
    (s.bindAt a.subchannel = none →
      exec (.engineForward m a) s =
        .next (s.raise
          { code := .unboundSubchannel, hdrAddr := some s.hdrAddr, hdrWord := some s.hdrWord, method := some m,
            subchannel := some a.subchannel, value := some a.value, argi := some s.argi }))

/-- R103: the control methods but BindObject do the same whatever the binding table holds, on every subchannel. -/
def Obligations.ControlMethodsIgnoreTheBindings : Prop :=
  ∀ (m : Word) (a : CallArgs) (s : State) (b : BindTable), m.toNat < 0x100 → m.toNat ≠ 0 →
    ∃ t, exec (decodeCall m a) s = .next t ∧
      ∃ u, exec (decodeCall m a) { s with bind := b } = .next u ∧ u = { t with bind := b }

/-- R104: a call that faults writes the fault alone, with the run and the call named; a call that does not leaves all but
`BIND`, `MACRO` and the trace as it was and emits at most one event of the dispatcher (R90). -/
def Obligations.CallsAreAllOrNothing : Prop :=
  ∀ (i : Instr) (s t : State), i.call? ≠ none → s.phase ≠ .faulted → exec i s = .next t →
    (t.phase = .faulted ∧
      ∃ r, t = s.raise r ∧ r.hdrAddr = some s.hdrAddr ∧ r.hdrWord = some s.hdrWord ∧ r.argi = some s.argi ∧
        r.method = i.call?.map (fun c => c.1) ∧ r.subchannel = i.call?.map (fun c => c.2.subchannel) ∧
        r.value = i.call?.map (fun c => c.2.value)) ∨
    (t.phase = s.phase ∧ t = { s with bind := t.bind, upload := t.upload, trace := t.trace } ∧
      (t.trace = s.trace ∨ ∃ e, Event.ofDispatch e = true ∧ t.trace = s.trace ++ [e]))

/-! ## Headers -/

/-- The headers with a run (R123 to R126, R134): with arguments the run begins, at call 0, and nothing else changes; with
`arg_count = 0` nothing changes (R135; that HDR and ARGI stay too is the model's, log 20). -/
def Obligations.RunHeadersBeginTheirRun : Prop :=
  ∀ (f : HeaderFields) (s : State),
    (f.argCount.toNat ≠ 0 →
      exec (.increasingOld f) s = .next { s with phase := .args, hdr := ⟨f, .increasingOld⟩, argi := 0 } ∧
      exec (.increasing f) s = .next { s with phase := .args, hdr := ⟨f, .increasing⟩, argi := 0 } ∧
      exec (.nonIncreasingOld f) s = .next { s with phase := .args, hdr := ⟨f, .nonIncreasingOld⟩, argi := 0 } ∧
      exec (.nonIncreasing f) s = .next { s with phase := .args, hdr := ⟨f, .nonIncreasing⟩, argi := 0 }) ∧
    (f.argCount.toNat = 0 →
      exec (.increasingOld f) s = .next s ∧ exec (.increasing f) s = .next s ∧
      exec (.nonIncreasingOld f) s = .next s ∧ exec (.nonIncreasing f) s = .next s)

/-- IncreaseOnce (R127, R134, R152): with at least one argument word the run begins, at call 0, and nothing else changes (log 20);
without one it faults before any read. -/
def Obligations.IncreaseOnceNeedsAnArgument : Prop :=
  faultNumber .increaseOnceZero = 2 ∧
  ∀ (f : HeaderFields) (s : State),
    (f.argCount.toNat ≠ 0 →
      exec (.increaseOnce f) s = .next { s with phase := .args, hdr := ⟨f, .increaseOnce⟩, argi := 0 }) ∧
    (f.argCount.toNat = 0 →
      exec (.increaseOnce f) s =
        .next (s.raise
          { code := .increaseOnceZero, hdrAddr := some s.hdrAddr, hdrWord := some s.hdrWord, method := none,
            subchannel := none, value := none, argi := none }))

/-- Inline (R128): one call, with the zero-extended immediate and `remaining_params = 0`; no word is read. Told for a bound
3D slot, a free slot at BindObject, and the three macro and control methods. That HDR and ARGI are set is the model's
(log 14). -/
def Obligations.InlineMakesItsOneCall : Prop :=
  ∀ (f : HeaderFields) (s : State),
    (0x100 ≤ f.method.toNat → s.bindAt f.subchannel = some classMaxwell3D →
      exec (.inlineHeader f) s =
        .next { s with
          hdr := ⟨f, .inlineMode⟩, argi := 0
          trace := s.trace ++ [.write3D (f.method.setWidth 32) (f.inlineData.setWidth 32) 0] }) ∧
    (f.method.toNat = 0 → s.bindAt f.subchannel = none →
      exec (.inlineHeader f) s =
        .next { s with
          hdr := ⟨f, .inlineMode⟩, argi := 0
          bind := s.bind.set f.subchannel.toNat (some (f.inlineData.setWidth 32)) f.subchannel.isLt }) ∧
    (f.method.toNat = 0x47 →
      exec (.inlineHeader f) s =
        .next { s with
          hdr := ⟨f, .inlineMode⟩, argi := 0, upload := .accumulating (f.inlineData.setWidth 32) [] }) ∧
    (∀ e c, f.method.toNat = 0x46 → s.upload = .accumulating e c →
      exec (.inlineHeader f) s =
        .next { s with
          hdr := ⟨f, .inlineMode⟩, argi := 0, upload := .idle
          trace := s.trace ++ [.submitMacro e (c ++ [f.inlineData.setWidth 32])] }) ∧
    (f.method.toNat = 0x45 →
      exec (.inlineHeader f) s =
        .next { s with
          hdr := ⟨f, .inlineMode⟩, argi := 0
          trace := s.trace ++
            [.diag .unimplementedControl 0x45 f.subchannel (f.inlineData.setWidth 32)] })

/-- Inline is the call that `classify` finds (R69, R128), for every method and in every state. -/
def Obligations.InlineIsTheClassifiedCall : Prop :=
  ∀ (f : HeaderFields) (s : State),
    exec (.inlineHeader f) s =
      exec (decodeCall (f.method.setWidth 32) ⟨f.subchannel, f.inlineData.setWidth 32, 0⟩)
        { s with hdr := ⟨f, .inlineMode⟩, argi := 0 }

/-- Mode codes 6 and 7 (R122, R151): `F_UNKNOWN_MODE`, always, whatever the other fields are. In a step, the cursor is past
the header, its READ is emitted (R121, R134, R171), no argument word is read and no call is made. That the step also keeps the
header's address and word for the record is the model's state of log 5. -/
def Obligations.InvalidModesFault : Prop :=
  faultNumber .unknownMode = 1 ∧
  (∀ (f : HeaderFields) (s : State) (r : FaultRecord),
    r = { code := .unknownMode, hdrAddr := some s.hdrAddr, hdrWord := some s.hdrWord, method := none,
          subchannel := none, value := none, argi := none } →
    exec (.invalidMode6 f) s = .next (s.raise r) ∧ exec (.invalidMode7 f) s = .next (s.raise r)) ∧
  (∀ (s : State) (w : Word), s.phase = .header → s.cur < s.endAddr → s.memRead s.cur = some w →
    6 ≤ w.toNat / 2 ^ 29 →
    step s =
      .next (({ s with
          cur := s.cur + 4
          trace := s.trace ++ [.read s.cur w]
          hdrAddr := s.cur
          hdrWord := w } : State).raise
        { code := .unknownMode, hdrAddr := some s.cur, hdrWord := some w, method := none, subchannel := none,
          value := none, argi := none }))

/-- The method of call `i` of a run, with no wrap and no truncation (R131): the natural number of each mode, at most 0x2001
under `PROFILE_DOC` and 0x3FFD under `PROFILE_UPSTREAM`. The one call of an Inline header needs no argument count. -/
def Obligations.MethodOfEachCallIsExact : Prop :=
  (∀ f : HeaderFields, (methodOf ⟨f, .inlineMode⟩ 0).toNat = f.method.toNat) ∧
  ∀ (p : HdrProfile) (f : HeaderFields) (i : Nat), f.wf p = true → i < f.argCount.toNat →
    (methodOf ⟨f, .increasingOld⟩ i).toNat = f.method.toNat + i ∧
    (methodOf ⟨f, .increasing⟩ i).toNat = f.method.toNat + i ∧
    (methodOf ⟨f, .nonIncreasingOld⟩ i).toNat = f.method.toNat ∧
    (methodOf ⟨f, .nonIncreasing⟩ i).toNat = f.method.toNat ∧
    (methodOf ⟨f, .increaseOnce⟩ i).toNat = (if i = 0 then f.method.toNat else f.method.toNat + 1) ∧
    f.method.toNat + i ≤ (match p with
      | .doc => 0x2001
      | .upstream => 0x3FFD)

/-- The count of call `i` of `n` (R132): `n - i - 1` exactly, so `n - 1` first and 0 for the last call and no other. -/
def Obligations.RemainingCountsTheCallsLeft : Prop :=
  ∀ (h : Header) (i : Nat), i < argCountOf h →
    (remainingOf (argCountOf h) i).toNat + i + 1 = argCountOf h ∧
    (remainingOf (argCountOf h) i = 0 ↔ i + 1 = argCountOf h)

/-! ## The step -/

/-- Every instruction answers a next state in every state: a fault of the block is taken, and the model refuses nothing. -/
def Obligations.EveryInstructionAnswersANextState : Prop :=
  ∀ (i : Instr) (s : State), ∃ t, exec i s = .next t

/-- A step runs the decoded header (R121, R134). Whatever the port: when it answers a word at the cursor of an active call, the
step is `exec` of the instruction of the word, with the cursor moved past it, the READ emitted, and the header's address and word
kept (log 5). With a memory-backed port the word is that of the four bytes at the cursor, and the instruction what `decode` reads
from them. -/
def Obligations.StepRunsTheHeaderAtTheCursor : Prop :=
  (∀ (s : State) (w : Word), s.phase = .header → s.cur < s.endAddr → s.memRead s.cur = some w →
    step s =
      exec (decodeWord s.cfg.profile w) { s with
        cur := s.cur + 4
        trace := s.trace ++ [.read s.cur w]
        hdrAddr := s.cur
        hdrWord := w }) ∧
  ∀ (s : State) (o : ByteOrder) (alignedOnly : Bool) (b0 b1 b2 b3 : Byte) (i : Instr),
    s.phase = .header → s.cur < s.endAddr → s.cur + 4 ≤ 2 ^ 64 →
    s.cfg.port = .memory o alignedOnly → (alignedOnly = true → s.cur % 4 = 0) →
    s.mem.byteAt s.cur = some b0 → s.mem.byteAt (s.cur + 1) = some b1 →
    s.mem.byteAt (s.cur + 2) = some b2 → s.mem.byteAt (s.cur + 3) = some b3 →
    decode s.cfg.profile o [b0, b1, b2, b3] = .ok (i, []) →
    step s =
      exec i { s with
        cur := s.cur + 4
        trace := s.trace ++ [.read s.cur (wordOfBytes o b0 b1 b2 b3)]
        hdrAddr := s.cur
        hdrWord := wordOfBytes o b0 b1 b2 b3 }

/-- A step of a run makes the run's next call (R129, R131, R132, R134), whatever `END` is (R188): the argument word is read,
the call made, and, unless it faulted, the run goes on to the next call or back to a header, where HDR and ARGI stay (the
model's choice, log 23). -/
def Obligations.StepMakesTheNextCallOfTheRun : Prop :=
  ∀ (s t : State) (w : Word),
    s.phase = .args → s.memRead s.cur = some w →
    exec (decodeCall (methodOf s.hdr s.argi) ⟨s.hdr.fields.subchannel, w, remainingOf (argCountOf s.hdr) s.argi⟩)
      { s with cur := s.cur + 4, trace := s.trace ++ [.read s.cur w] } = .next t →
    (t.phase = .faulted → step s = .next t) ∧
    (t.phase ≠ .faulted → s.argi + 1 = argCountOf s.hdr → step s = .next { t with phase := .header }) ∧
    (t.phase ≠ .faulted → s.argi + 1 ≠ argCountOf s.hdr → step s = .next { t with argi := s.argi + 1 })

/-- The start of `process` (R120, R134): the translated base, the region's end on naturals, one TRANSLATE, `PHASE = Header`;
also for a count of 0 (D28). -/
def Obligations.ProcessEntersTheRegion : Prop :=
  ∀ (s : State) (base lin : Addr) (count : Word) (rest : List HostRequest),
    s.phase = .idle → s.requests = .process base count :: rest → s.translate base = some lin →
    step s =
      .next { s with
        requests := rest, cur := lin.toNat, endAddr := lin.toNat + count.toNat * 4, phase := .header
        trace := s.trace ++ [.translate base lin] }

/-- The normal end (R130): at a header position at or past `END`, DONE and `PHASE = Idle`, with no read. That END, HDR and ARGI
stay is the model's choice (log 23). -/
def Obligations.CallEndsAtTheRegionsEnd : Prop :=
  ∀ s : State, s.phase = .header → s.endAddr ≤ s.cur →
    step s = .next { s with phase := .idle, trace := s.trace ++ [.done] }

/-- `F_PORT` (R157, R160): a failed translation, header read or argument read faults with the record the rule gives; a read whose
address would pass 2^64 fails. That a failed port call adds no TRANSLATE or READ event (R171) and leaves CUR (R121) is an
inference of the model, log 13. -/
def Obligations.PortFailuresFault : Prop :=
  faultNumber .port = 7 ∧
  (∀ (s : State) (base : Addr) (count : Word) (rest : List HostRequest),
    s.phase = .idle → s.requests = .process base count :: rest → s.translate base = none →
    step s =
      .next (({ s with requests := rest } : State).raise
        { code := .port, hdrAddr := none, hdrWord := none, method := none, subchannel := none, value := none,
          argi := none })) ∧
  (∀ s : State, s.phase = .header → s.cur < s.endAddr → s.memRead s.cur = none →
    step s =
      .next (s.raise
        { code := .port, hdrAddr := none, hdrWord := none, method := none, subchannel := none, value := none,
          argi := none })) ∧
  (∀ s : State, s.phase = .args → s.memRead s.cur = none →
    step s =
      .next (s.raise
        { code := .port, hdrAddr := some s.hdrAddr, hdrWord := some s.hdrWord,
          method := some (methodOf s.hdr s.argi), subchannel := some s.hdr.fields.subchannel, value := none,
          argi := some s.argi })) ∧
  (∀ (s : State) (a : Nat), 2 ^ 64 < a + 4 → s.memRead a = none)

/-- Fault entry (R160): the record, the FAULT event, `PHASE = Faulted`, and nothing else. -/
def Obligations.FaultEntryWritesOnlyTheFault : Prop :=
  ∀ (s : State) (r : FaultRecord),
    s.raise r = { s with fault := some r, phase := .faulted, trace := s.trace ++ [.fault r.code r] }

/-- A fault is sticky (R162): a faulted block takes no `process`, has no step of its own, and every step it does make leaves
it faulted with all its state, `FAULT`, `BIND`, `MACRO` and `CUR` among it (R160), as it was, but for reset, which returns it to
Idle and clears the first three. How the model names the two stops, and that only the host's plan and the port's data may
change, is the model's choice (log 10 to 12). -/
def Obligations.FaultIsStickyUntilReset : Prop :=
  ∀ s : State, s.phase = .faulted →
    (s.requests = [] → step s = .fault .stuckUntilReset) ∧
    (∀ base count rest, s.requests = .process base count :: rest → step s = .refused .processWhileFaulted) ∧
    (∀ t, step s = .next t →
      (t.phase = .faulted ∧ t.fault = s.fault ∧ t.bind = s.bind ∧ t.upload = s.upload ∧ t.cur = s.cur ∧
        t = { s with requests := t.requests, mem := t.mem, tmap := t.tmap, answers := t.answers } ∧ ∀ rest, s.requests ≠ .reset :: rest) ∨
      (∃ rest, s.requests = .reset :: rest ∧ t.phase = .idle ∧ t.fault = none ∧ t.upload = .idle ∧
        ∀ sc, t.bindAt sc = none)) ∧
    (∀ rest, s.requests = .reset :: rest → ∃ t, step s = .next t)

/-- Reset (R180), from `Idle` or `Faulted`: every slot unbound, `MACRO` and `PHASE` Idle, no fault, no event. That the trace,
the port's data and the host's plan go on across it is the model's choice (log 8, log 15). -/
def Obligations.ResetClearsTheBlock : Prop :=
  ∀ (s : State) (rest : List HostRequest), s.phase = .idle ∨ s.phase = .faulted → s.requests = .reset :: rest →
    ∃ t, step s = .next t ∧ (∀ sc, t.bindAt sc = none) ∧ t.upload = .idle ∧ t.phase = .idle ∧ t.fault = none ∧
      t.trace = s.trace ∧ t.mem = s.mem ∧ t.tmap = s.tmap ∧ t.answers = s.answers ∧ t.cfg = s.cfg ∧ t.requests = rest

/-- The values after reset that the spec gives (R35), for every value of the parameters; `State.reset` is one of these states. -/
def Obligations.StateAfterReset : Prop :=
  ∀ c : Config,
    (∀ sc, (State.resetWith c).bindAt sc = none) ∧ (State.resetWith c).upload = .idle ∧
    (State.resetWith c).phase = .idle ∧ (State.resetWith c).fault = none

/-! ## Memory -/

/-- A read of the default port (R43, R44): a word is its four bytes, the lowest address in the low bits; a read that is misaligned
or meets an unmapped byte fails. -/
def Obligations.DefaultPortReadsLittleEndian : Prop :=
  ∀ (s : State) (a : Nat), s.cfg.port = Port.default → a + 4 ≤ 2 ^ 64 →
    (a % 4 ≠ 0 → s.memRead a = none) ∧
    (∀ k, k < 4 → s.mem.byteAt (a + k) = none → s.memRead a = none) ∧
    (∀ b0 b1 b2 b3, a % 4 = 0 → s.mem.byteAt a = some b0 → s.mem.byteAt (a + 1) = some b1 →
      s.mem.byteAt (a + 2) = some b2 → s.mem.byteAt (a + 3) = some b3 →
      ∃ w, s.memRead a = some w ∧ w.toNat = b0.toNat + b1.toNat * 2 ^ 8 + b2.toNat * 2 ^ 16 + b3.toNat * 2 ^ 24)

/-- `PORT` is OPEN (R6, R44: "A model may take any other port as a parameter"): every `translate` and every `read32`, with no tie
between one address and another, is the port of some translation map and some answers, both canonical (the form of the table is
the model's choice, log 3). -/
def Obligations.EveryPortIsATableOfAnswers : Prop :=
  ∀ (translate : Addr → Option Addr) (read32 : Addr → Option Word),
    ∃ (m : TransMap) (ans : AnswerTable), keysWf m ∧ keysWf ans ∧
      ∀ s t : State, t = { s with cfg := { s.cfg with port := .table }, tmap := m, answers := ans } →
        (∀ va, t.translate va = translate va) ∧ ∀ a : Addr, a.toNat + 4 ≤ 2 ^ 64 → t.memRead a.toNat = read32 a

/-- A change of one byte keeps the canonical form and is read back, and every other byte reads as before. -/
def Obligations.ByteWriteIsReadBack : Prop :=
  ∀ (m : Memory) (k : Nat) (b : Option Byte), Memory.wf m → k < 2 ^ 64 →
    Memory.wf (m.setByte k b) ∧ ∀ a, (m.setByte k b).byteAt a = if a = k then b else m.byteAt a

/-- Between calls memory may change and the block sees it (R54): the host's change is all the step does. That the change is an
action on the host's list is the model's choice (log 12). -/
def Obligations.HostChangesAByteBetweenCalls : Prop :=
  ∀ (s : State) (a : Addr) (b : Option Byte) (rest : List HostRequest),
    s.phase = .idle ∨ s.phase = .faulted → Memory.wf s.mem → s.requests = .setByte a b :: rest →
    ∃ t, step s = .next t ∧ t = { s with requests := rest, mem := t.mem } ∧
      ∀ x, t.mem.byteAt x = if x = a.toNat then b else s.mem.byteAt x

/-- Between calls the translation may change and the next call sees it (R54): the step takes the host's change, the translation
reads back, every other translation, all memory and everything else stay, and the map stays canonical. That the change is an
action on the host's list is the model's choice (log 12). -/
def Obligations.HostChangesATranslationBetweenCalls : Prop :=
  ∀ (s : State) (va : Addr) (lin : Option Addr) (rest : List HostRequest),
    s.phase = .idle ∨ s.phase = .faulted → keysWf s.tmap → s.requests = .setTranslation va lin :: rest →
    ∃ t, step s = .next t ∧ t = { s with requests := rest, tmap := t.tmap } ∧ keysWf t.tmap ∧
      ∀ x, t.translate x = if x = va then lin else s.translate x

/-- Between calls an answer of a port given answer by answer may change and the next call sees it (R54): the read at that address
answers so, every other address reads as before, and everything else stays. That the change is an action on the host's list is
the model's choice (log 12). -/
def Obligations.HostChangesAnAnswerBetweenCalls : Prop :=
  ∀ (s : State) (a : Addr) (w : Option Word) (rest : List HostRequest),
    s.phase = .idle ∨ s.phase = .faulted → s.cfg.port = .table → keysWf s.answers → s.requests = .setAnswer a w :: rest →
    ∃ t, step s = .next t ∧ t = { s with requests := rest, answers := t.answers } ∧ keysWf t.answers ∧
      ∀ x, x + 4 ≤ 2 ^ 64 → t.memRead x = if x = a.toNat then w else s.memRead x

/-- The block never writes memory, its translation map or its parameters, and during a call the host's actions wait (R41,
R46, R53): no step of an active call changes any of them, and no step at all changes the parameters. -/
def Obligations.ActiveCallLeavesMemoryAlone : Prop :=
  ∀ s t : State, step s = .next t →
    t.cfg = s.cfg ∧ (s.phase.active = true → t.mem = s.mem ∧ t.tmap = s.tmap ∧ t.answers = s.answers ∧ t.requests = s.requests)

/-! ## Invariants -/

/-- Every step keeps the machine's invariant: canonical memory, translation map and answers, distinct class values, a run in progress
that is the run of the header word kept, and `FAULT` set exactly in `Faulted`. -/
def Obligations.StepKeepsTheMachineInvariant : Prop :=
  ∀ s t : State, s.Inv → step s = .next t → t.Inv

/-- The state after reset has the invariant, for every admissible value of the parameters (R7). That memory, translation
map and answers list nothing then is the model's choice (log 3). -/
def Obligations.ResetHasTheMachineInvariant : Prop :=
  ∀ c : Config, c.wf = true → (State.resetWith c).Inv

/-- R187: no code word is pending in `Idle` or at a header position, in every state a step leads to from one where that holds; so a
call that ends normally never leaves code words pending. A faulted block may hold pending code (R161, R187). -/
def Obligations.NoCodeIsPendingInIdleOrAtAHeader : Prop :=
  (∀ c : Config, (State.resetWith c).codeSettled) ∧
  (∀ s t : State, s.Inv → s.codeSettled → step s = .next t → t.codeSettled)

/-- R22: a bound slot keeps its class through every step but the host's reset of a block with no active call. -/
def Obligations.BindingsPersistUntilReset : Prop :=
  ∀ (s t : State) (sc : SubCh) (c : Word), step s = .next t → s.bindAt sc = some c →
    t.bindAt sc = some c ∨ (s.phase.active = false ∧ ∃ rest, s.requests = .reset :: rest)

/-- R25, R41, R47: in a call the cursor moves by exactly one word for each word read, at the address it stood at, and never
otherwise; `END` stays. -/
def Obligations.CursorMovesOneWordPerRead : Prop :=
  ∀ s t : State, s.phase.active = true → step s = .next t →
    t.endAddr = s.endAddr ∧
    ∃ es, t.trace = s.trace ++ es ∧
      ((t.cur = s.cur ∧ readAddrs es = []) ∨ (t.cur = s.cur + 4 ∧ readAddrs es = [s.cur]))

/-- R134, R90: the trace only grows, and one step reads at most one word and emits at most one engine, macro or diagnostic event. A
call without an event is not counted here. -/
def Obligations.OneStepReadsOnceAndEmitsOneEngineEventAtMost : Prop :=
  ∀ s t : State, step s = .next t →
    ∃ es, t.trace = s.trace ++ es ∧ (readAddrs es).length ≤ 1 ∧ (es.filter Event.ofDispatch).length ≤ 1

/-- R174: a call ends exactly when DONE or FAULT is emitted, by the step that emits it. -/
def Obligations.CallEndsExactlyWithDoneOrFault : Prop :=
  ∀ s t : State, s.phase.active = true → step s = .next t →
    ∃ es, t.trace = s.trace ++ es ∧ (t.phase = .idle ↔ .done ∈ es) ∧
      (t.phase = .faulted ↔ ∃ c r, .fault c r ∈ es)

/-! ## Whole runs and whole calls -/

/-- R121 and R134 agree on one header: from a header position inside the region, some run of steps ends in the state that the
header cycle of R121, its whole run included, gives, at a header position or faulted. -/
def Obligations.StepsCompleteTheHeaderCycle : Prop :=
  ∀ s : State, s.phase = .header → s.cur < s.endAddr →
    ∃ k t, Host.Core.run Sys2Proof.core k s = .next t ∧ headerCycle s = .next t ∧
      (t.phase = .header ∨ t.phase = .faulted)

/-- R120 and R134 agree on a whole call: the steps from `process(base, count)` lead to exactly the state that the loop of
R120 gives, events and all, Idle or Faulted. -/
def Obligations.StepsCompleteTheProcessCall : Prop :=
  ∀ (s : State) (base : Addr) (count : Word) (rest : List HostRequest),
    s.phase = .idle → s.requests = .process base count :: rest →
    ∃ k t, Host.Core.run Sys2Proof.core k s = .next t ∧ processCall base count { s with requests := rest } = .next t ∧
      (t.phase = .idle ∨ t.phase = .faulted)

/-- R130: a call always ends, and soon: within `count + 8193` steps (one to start, one a word, at most 8191 words past the
region's end, one for DONE) the state is the one the loop of R120 gives; it is Idle with DONE the last event, or Faulted with
the FAULT event of the record in `FAULT` the last, and the trace before the call is kept. -/
def Obligations.ProcessCallEndsInTime : Prop :=
  ∀ (s : State) (base : Addr) (count : Word) (rest : List HostRequest),
    s.phase = .idle → s.requests = .process base count :: rest →
    ∃ k t, k ≤ count.toNat + 8193 ∧ Host.Core.run Sys2Proof.core k s = .next t ∧
      processCall base count { s with requests := rest } = .next t ∧
      ∃ es, (t.phase = .idle ∧ t.trace = s.trace ++ es ++ [.done]) ∨
        (t.phase = .faulted ∧ ∃ r, t.fault = some r ∧ t.trace = s.trace ++ es ++ [.fault r.code r])

/-- A whole packet of any mode with a run, all of whose methods are engine methods, through a slot bound to the 3D engine
(R123 to R127, R129, R131, R132, R99): from the header position, one step for each word; each argument word is read and then
written to the method of its mode with the count of calls left; the cursor is behind the packet and nothing else changes. That
ARGI stays at the last call, `n - 1`, and HDR at the header is the model's choice (log 23). -/
def Obligations.ThreeDPacketWritesEveryArgument : Prop :=
  ∀ (s : State) (w : Word) (h : Header) (vs : List Word),
    s.phase = .header → s.cur < s.endAddr → s.memRead s.cur = some w → h = decodeHeader s.cfg.profile w →
    modeHasRun h.mode = true → vs.length = argCountOf h → vs ≠ [] →
    (∀ (i : Nat) (hi : i < vs.length), s.memRead (s.cur + 4 + 4 * i) = some vs[i]) →
    s.bindAt h.fields.subchannel = some classMaxwell3D → (∀ i, i < vs.length → 0x100 ≤ methodNat h i) →
    Host.Core.run Sys2Proof.core (vs.length + 1) s =
      .next { s with
        cur := s.cur + 4 + 4 * vs.length
        hdr := h, argi := vs.length - 1, hdrAddr := s.cur, hdrWord := w
        trace := s.trace ++ [.read s.cur w] ++
          vs.zipIdx.flatMap (fun x =>
            [.read (s.cur + 4 + 4 * x.2) x.1, .write3D (methodOf h x.2) x.1 (remainingOf vs.length x.2)]) }

/-- A macro upload carried by one run (R93, R94, R126): a NonIncreasing packet to 0x46 with an entry selected submits, with its
last word, the code so far and all its words in order, exactly once, and `MACRO` is Idle after; no binding is needed. That ARGI
stays at the last call, `n - 1`, and HDR at the header is the model's choice (log 23). -/
def Obligations.MacroPacketSubmitsItsWordsOnce : Prop :=
  ∀ (s : State) (w : Word) (h : Header) (vs : List Word) (e : Word) (c : List Word),
    s.phase = .header → s.cur < s.endAddr → s.memRead s.cur = some w → h = decodeHeader s.cfg.profile w →
    h.mode = .nonIncreasing ∨ h.mode = .nonIncreasingOld → h.fields.method = 0x46 →
    vs.length = argCountOf h → vs ≠ [] →
    (∀ (i : Nat) (hi : i < vs.length), s.memRead (s.cur + 4 + 4 * i) = some vs[i]) →
    s.upload = .accumulating e c →
    Host.Core.run Sys2Proof.core (vs.length + 1) s =
      .next { s with
        cur := s.cur + 4 + 4 * vs.length
        hdr := h, argi := vs.length - 1, hdrAddr := s.cur, hdrWord := w, upload := .idle
        trace := s.trace ++ [.read s.cur w] ++ vs.zipIdx.map (fun x => Event.read (s.cur + 4 + 4 * x.2) x.1) ++
          [.submitMacro e (c ++ vs)] }
end

