-- ==== Sys2Proof/Laws/State.lean ====
section
/-! SUPPORT. One lemma for each field under each update of the state, so that no proof unfolds a record update. -/

namespace Sys2Proof.Machine

open Sys2Proof

/-! ## `State.emit` -/

@[simp] theorem State.emit_cfg (s : State) (e : Event) : (s.emit e).cfg = s.cfg := rfl
@[simp] theorem State.emit_bind (s : State) (e : Event) : (s.emit e).bind = s.bind := rfl
@[simp] theorem State.emit_upload (s : State) (e : Event) : (s.emit e).upload = s.upload := rfl
@[simp] theorem State.emit_phase (s : State) (e : Event) : (s.emit e).phase = s.phase := rfl
@[simp] theorem State.emit_cur (s : State) (e : Event) : (s.emit e).cur = s.cur := rfl
@[simp] theorem State.emit_endAddr (s : State) (e : Event) : (s.emit e).endAddr = s.endAddr := rfl
@[simp] theorem State.emit_hdr (s : State) (e : Event) : (s.emit e).hdr = s.hdr := rfl
@[simp] theorem State.emit_argi (s : State) (e : Event) : (s.emit e).argi = s.argi := rfl
@[simp] theorem State.emit_hdrAddr (s : State) (e : Event) : (s.emit e).hdrAddr = s.hdrAddr := rfl
@[simp] theorem State.emit_hdrWord (s : State) (e : Event) : (s.emit e).hdrWord = s.hdrWord := rfl
@[simp] theorem State.emit_fault (s : State) (e : Event) : (s.emit e).fault = s.fault := rfl
@[simp] theorem State.emit_mem (s : State) (e : Event) : (s.emit e).mem = s.mem := rfl
@[simp] theorem State.emit_tmap (s : State) (e : Event) : (s.emit e).tmap = s.tmap := rfl
@[simp] theorem State.emit_answers (s : State) (e : Event) : (s.emit e).answers = s.answers := rfl
@[simp] theorem State.emit_requests (s : State) (e : Event) : (s.emit e).requests = s.requests := rfl
@[simp] theorem State.emit_trace (s : State) (e : Event) : (s.emit e).trace = s.trace ++ [e] := rfl

/-! ## `State.diagUnimplemented` -/

@[simp] theorem State.diagUnimplemented_cfg (s : State) (m : Word) (a : CallArgs) : (s.diagUnimplemented m a).cfg = s.cfg := rfl
@[simp] theorem State.diagUnimplemented_bind (s : State) (m : Word) (a : CallArgs) : (s.diagUnimplemented m a).bind = s.bind := rfl
@[simp] theorem State.diagUnimplemented_upload (s : State) (m : Word) (a : CallArgs) : (s.diagUnimplemented m a).upload = s.upload := rfl
@[simp] theorem State.diagUnimplemented_phase (s : State) (m : Word) (a : CallArgs) : (s.diagUnimplemented m a).phase = s.phase := rfl
@[simp] theorem State.diagUnimplemented_cur (s : State) (m : Word) (a : CallArgs) : (s.diagUnimplemented m a).cur = s.cur := rfl
@[simp] theorem State.diagUnimplemented_endAddr (s : State) (m : Word) (a : CallArgs) : (s.diagUnimplemented m a).endAddr = s.endAddr := rfl
@[simp] theorem State.diagUnimplemented_hdr (s : State) (m : Word) (a : CallArgs) : (s.diagUnimplemented m a).hdr = s.hdr := rfl
@[simp] theorem State.diagUnimplemented_argi (s : State) (m : Word) (a : CallArgs) : (s.diagUnimplemented m a).argi = s.argi := rfl
@[simp] theorem State.diagUnimplemented_hdrAddr (s : State) (m : Word) (a : CallArgs) : (s.diagUnimplemented m a).hdrAddr = s.hdrAddr := rfl
@[simp] theorem State.diagUnimplemented_hdrWord (s : State) (m : Word) (a : CallArgs) : (s.diagUnimplemented m a).hdrWord = s.hdrWord := rfl
@[simp] theorem State.diagUnimplemented_fault (s : State) (m : Word) (a : CallArgs) : (s.diagUnimplemented m a).fault = s.fault := rfl
@[simp] theorem State.diagUnimplemented_mem (s : State) (m : Word) (a : CallArgs) : (s.diagUnimplemented m a).mem = s.mem := rfl
@[simp] theorem State.diagUnimplemented_tmap (s : State) (m : Word) (a : CallArgs) : (s.diagUnimplemented m a).tmap = s.tmap := rfl
@[simp] theorem State.diagUnimplemented_answers (s : State) (m : Word) (a : CallArgs) : (s.diagUnimplemented m a).answers = s.answers := rfl
@[simp] theorem State.diagUnimplemented_requests (s : State) (m : Word) (a : CallArgs) : (s.diagUnimplemented m a).requests = s.requests := rfl
@[simp] theorem State.diagUnimplemented_trace (s : State) (m : Word) (a : CallArgs) : (s.diagUnimplemented m a).trace = s.trace ++ [.diag .unimplementedControl m a.subchannel a.value] := rfl

/-! ## `State.raise` -/

@[simp] theorem State.raise_cfg (s : State) (r : FaultRecord) : (s.raise r).cfg = s.cfg := rfl
@[simp] theorem State.raise_bind (s : State) (r : FaultRecord) : (s.raise r).bind = s.bind := rfl
@[simp] theorem State.raise_upload (s : State) (r : FaultRecord) : (s.raise r).upload = s.upload := rfl
@[simp] theorem State.raise_phase (s : State) (r : FaultRecord) : (s.raise r).phase = .faulted := rfl
@[simp] theorem State.raise_cur (s : State) (r : FaultRecord) : (s.raise r).cur = s.cur := rfl
@[simp] theorem State.raise_endAddr (s : State) (r : FaultRecord) : (s.raise r).endAddr = s.endAddr := rfl
@[simp] theorem State.raise_hdr (s : State) (r : FaultRecord) : (s.raise r).hdr = s.hdr := rfl
@[simp] theorem State.raise_argi (s : State) (r : FaultRecord) : (s.raise r).argi = s.argi := rfl
@[simp] theorem State.raise_hdrAddr (s : State) (r : FaultRecord) : (s.raise r).hdrAddr = s.hdrAddr := rfl
@[simp] theorem State.raise_hdrWord (s : State) (r : FaultRecord) : (s.raise r).hdrWord = s.hdrWord := rfl
@[simp] theorem State.raise_fault (s : State) (r : FaultRecord) : (s.raise r).fault = some r := rfl
@[simp] theorem State.raise_mem (s : State) (r : FaultRecord) : (s.raise r).mem = s.mem := rfl
@[simp] theorem State.raise_tmap (s : State) (r : FaultRecord) : (s.raise r).tmap = s.tmap := rfl
@[simp] theorem State.raise_answers (s : State) (r : FaultRecord) : (s.raise r).answers = s.answers := rfl
@[simp] theorem State.raise_requests (s : State) (r : FaultRecord) : (s.raise r).requests = s.requests := rfl
@[simp] theorem State.raise_trace (s : State) (r : FaultRecord) : (s.raise r).trace = s.trace ++ [.fault r.code r] := rfl

/-! ## `State.resetBlock` -/

@[simp] theorem State.resetBlock_cfg (s : State) : (s.resetBlock).cfg = s.cfg := rfl
@[simp] theorem State.resetBlock_bind (s : State) : (s.resetBlock).bind = Vector.replicate 8 none := rfl
@[simp] theorem State.resetBlock_upload (s : State) : (s.resetBlock).upload = .idle := rfl
@[simp] theorem State.resetBlock_phase (s : State) : (s.resetBlock).phase = .idle := rfl
@[simp] theorem State.resetBlock_cur (s : State) : (s.resetBlock).cur = 0 := rfl
@[simp] theorem State.resetBlock_endAddr (s : State) : (s.resetBlock).endAddr = 0 := rfl
@[simp] theorem State.resetBlock_hdr (s : State) : (s.resetBlock).hdr = State.reset.hdr := rfl
@[simp] theorem State.resetBlock_argi (s : State) : (s.resetBlock).argi = 0 := rfl
@[simp] theorem State.resetBlock_hdrAddr (s : State) : (s.resetBlock).hdrAddr = 0 := rfl
@[simp] theorem State.resetBlock_hdrWord (s : State) : (s.resetBlock).hdrWord = 0 := rfl
@[simp] theorem State.resetBlock_fault (s : State) : (s.resetBlock).fault = none := rfl
@[simp] theorem State.resetBlock_mem (s : State) : (s.resetBlock).mem = s.mem := rfl
@[simp] theorem State.resetBlock_tmap (s : State) : (s.resetBlock).tmap = s.tmap := rfl
@[simp] theorem State.resetBlock_answers (s : State) : (s.resetBlock).answers = s.answers := rfl
@[simp] theorem State.resetBlock_requests (s : State) : (s.resetBlock).requests = s.requests := rfl
@[simp] theorem State.resetBlock_trace (s : State) : (s.resetBlock).trace = s.trace := rfl

/-! ## `State.setBind` -/

@[simp] theorem State.setBind_cfg (s : State) (sc : SubCh) (v : Word) : (s.setBind sc v).cfg = s.cfg := rfl
@[simp] theorem State.setBind_bind (s : State) (sc : SubCh) (v : Word) : (s.setBind sc v).bind = s.bind.set sc.toNat (some v) sc.isLt := rfl
@[simp] theorem State.setBind_upload (s : State) (sc : SubCh) (v : Word) : (s.setBind sc v).upload = s.upload := rfl
@[simp] theorem State.setBind_phase (s : State) (sc : SubCh) (v : Word) : (s.setBind sc v).phase = s.phase := rfl
@[simp] theorem State.setBind_cur (s : State) (sc : SubCh) (v : Word) : (s.setBind sc v).cur = s.cur := rfl
@[simp] theorem State.setBind_endAddr (s : State) (sc : SubCh) (v : Word) : (s.setBind sc v).endAddr = s.endAddr := rfl
@[simp] theorem State.setBind_hdr (s : State) (sc : SubCh) (v : Word) : (s.setBind sc v).hdr = s.hdr := rfl
@[simp] theorem State.setBind_argi (s : State) (sc : SubCh) (v : Word) : (s.setBind sc v).argi = s.argi := rfl
@[simp] theorem State.setBind_hdrAddr (s : State) (sc : SubCh) (v : Word) : (s.setBind sc v).hdrAddr = s.hdrAddr := rfl
@[simp] theorem State.setBind_hdrWord (s : State) (sc : SubCh) (v : Word) : (s.setBind sc v).hdrWord = s.hdrWord := rfl
@[simp] theorem State.setBind_fault (s : State) (sc : SubCh) (v : Word) : (s.setBind sc v).fault = s.fault := rfl
@[simp] theorem State.setBind_mem (s : State) (sc : SubCh) (v : Word) : (s.setBind sc v).mem = s.mem := rfl
@[simp] theorem State.setBind_tmap (s : State) (sc : SubCh) (v : Word) : (s.setBind sc v).tmap = s.tmap := rfl
@[simp] theorem State.setBind_answers (s : State) (sc : SubCh) (v : Word) : (s.setBind sc v).answers = s.answers := rfl
@[simp] theorem State.setBind_requests (s : State) (sc : SubCh) (v : Word) : (s.setBind sc v).requests = s.requests := rfl
@[simp] theorem State.setBind_trace (s : State) (sc : SubCh) (v : Word) : (s.setBind sc v).trace = s.trace := rfl

/-! ## `State.setUpload` -/

@[simp] theorem State.setUpload_cfg (s : State) (m : MacroUpload) : (s.setUpload m).cfg = s.cfg := rfl
@[simp] theorem State.setUpload_bind (s : State) (m : MacroUpload) : (s.setUpload m).bind = s.bind := rfl
@[simp] theorem State.setUpload_upload (s : State) (m : MacroUpload) : (s.setUpload m).upload = m := rfl
@[simp] theorem State.setUpload_phase (s : State) (m : MacroUpload) : (s.setUpload m).phase = s.phase := rfl
@[simp] theorem State.setUpload_cur (s : State) (m : MacroUpload) : (s.setUpload m).cur = s.cur := rfl
@[simp] theorem State.setUpload_endAddr (s : State) (m : MacroUpload) : (s.setUpload m).endAddr = s.endAddr := rfl
@[simp] theorem State.setUpload_hdr (s : State) (m : MacroUpload) : (s.setUpload m).hdr = s.hdr := rfl
@[simp] theorem State.setUpload_argi (s : State) (m : MacroUpload) : (s.setUpload m).argi = s.argi := rfl
@[simp] theorem State.setUpload_hdrAddr (s : State) (m : MacroUpload) : (s.setUpload m).hdrAddr = s.hdrAddr := rfl
@[simp] theorem State.setUpload_hdrWord (s : State) (m : MacroUpload) : (s.setUpload m).hdrWord = s.hdrWord := rfl
@[simp] theorem State.setUpload_fault (s : State) (m : MacroUpload) : (s.setUpload m).fault = s.fault := rfl
@[simp] theorem State.setUpload_mem (s : State) (m : MacroUpload) : (s.setUpload m).mem = s.mem := rfl
@[simp] theorem State.setUpload_tmap (s : State) (m : MacroUpload) : (s.setUpload m).tmap = s.tmap := rfl
@[simp] theorem State.setUpload_answers (s : State) (m : MacroUpload) : (s.setUpload m).answers = s.answers := rfl
@[simp] theorem State.setUpload_requests (s : State) (m : MacroUpload) : (s.setUpload m).requests = s.requests := rfl
@[simp] theorem State.setUpload_trace (s : State) (m : MacroUpload) : (s.setUpload m).trace = s.trace := rfl

/-! ## `State.flush` -/

@[simp] theorem State.flush_cfg (s : State) (e : Word) (c : List Word) : (s.flush e c).cfg = s.cfg := rfl
@[simp] theorem State.flush_bind (s : State) (e : Word) (c : List Word) : (s.flush e c).bind = s.bind := rfl
@[simp] theorem State.flush_upload (s : State) (e : Word) (c : List Word) : (s.flush e c).upload = .idle := rfl
@[simp] theorem State.flush_phase (s : State) (e : Word) (c : List Word) : (s.flush e c).phase = s.phase := rfl
@[simp] theorem State.flush_cur (s : State) (e : Word) (c : List Word) : (s.flush e c).cur = s.cur := rfl
@[simp] theorem State.flush_endAddr (s : State) (e : Word) (c : List Word) : (s.flush e c).endAddr = s.endAddr := rfl
@[simp] theorem State.flush_hdr (s : State) (e : Word) (c : List Word) : (s.flush e c).hdr = s.hdr := rfl
@[simp] theorem State.flush_argi (s : State) (e : Word) (c : List Word) : (s.flush e c).argi = s.argi := rfl
@[simp] theorem State.flush_hdrAddr (s : State) (e : Word) (c : List Word) : (s.flush e c).hdrAddr = s.hdrAddr := rfl
@[simp] theorem State.flush_hdrWord (s : State) (e : Word) (c : List Word) : (s.flush e c).hdrWord = s.hdrWord := rfl
@[simp] theorem State.flush_fault (s : State) (e : Word) (c : List Word) : (s.flush e c).fault = s.fault := rfl
@[simp] theorem State.flush_mem (s : State) (e : Word) (c : List Word) : (s.flush e c).mem = s.mem := rfl
@[simp] theorem State.flush_tmap (s : State) (e : Word) (c : List Word) : (s.flush e c).tmap = s.tmap := rfl
@[simp] theorem State.flush_answers (s : State) (e : Word) (c : List Word) : (s.flush e c).answers = s.answers := rfl
@[simp] theorem State.flush_requests (s : State) (e : Word) (c : List Word) : (s.flush e c).requests = s.requests := rfl
@[simp] theorem State.flush_trace (s : State) (e : Word) (c : List Word) : (s.flush e c).trace = s.trace ++ [.submitMacro e c] := rfl

/-! ## `State.endCall` -/

@[simp] theorem State.endCall_cfg (s : State) : (s.endCall).cfg = s.cfg := rfl
@[simp] theorem State.endCall_bind (s : State) : (s.endCall).bind = s.bind := rfl
@[simp] theorem State.endCall_upload (s : State) : (s.endCall).upload = s.upload := rfl
@[simp] theorem State.endCall_phase (s : State) : (s.endCall).phase = .idle := rfl
@[simp] theorem State.endCall_cur (s : State) : (s.endCall).cur = s.cur := rfl
@[simp] theorem State.endCall_endAddr (s : State) : (s.endCall).endAddr = s.endAddr := rfl
@[simp] theorem State.endCall_hdr (s : State) : (s.endCall).hdr = s.hdr := rfl
@[simp] theorem State.endCall_argi (s : State) : (s.endCall).argi = s.argi := rfl
@[simp] theorem State.endCall_hdrAddr (s : State) : (s.endCall).hdrAddr = s.hdrAddr := rfl
@[simp] theorem State.endCall_hdrWord (s : State) : (s.endCall).hdrWord = s.hdrWord := rfl
@[simp] theorem State.endCall_fault (s : State) : (s.endCall).fault = s.fault := rfl
@[simp] theorem State.endCall_mem (s : State) : (s.endCall).mem = s.mem := rfl
@[simp] theorem State.endCall_tmap (s : State) : (s.endCall).tmap = s.tmap := rfl
@[simp] theorem State.endCall_answers (s : State) : (s.endCall).answers = s.answers := rfl
@[simp] theorem State.endCall_requests (s : State) : (s.endCall).requests = s.requests := rfl
@[simp] theorem State.endCall_trace (s : State) : (s.endCall).trace = s.trace ++ [.done] := rfl

end Sys2Proof.Machine
end

