-- ==== Sys2Proof/Laws/Memory.lean ====
section
/-! SUPPORT. The sparse maps: a read after a write, and that every operation keeps the canonical form. -/

namespace Sys2Proof.Machine

open Sys2Proof

section Keys

variable {α : Type}

@[simp] theorem lookupKey_nil (k : Nat) : lookupKey k ([] : List (Nat × α)) = none := rfl

/-- A key below every listed one is not listed. -/
theorem lookupKey_eq_none_of_lt {k : Nat} {l : List (Nat × α)} (h : ∀ c ∈ l, k < c.1) : lookupKey k l = none := by
  induction l with
  | nil => rfl
  | cons c rest ih =>
    have hc : k < c.1 := h c (by simp)
    simp only [lookupKey]
    rw [if_neg (by omega)]
    exact ih fun d hd => h d (by simp [hd])

/-- A read after a write: the value at the key, and every other key as before. -/
theorem lookupKey_setKey {l : List (Nat × α)} (hl : l.Pairwise (fun a b => a.1 < b.1)) (k a : Nat) (v : Option α) :
    lookupKey a (setKey k v l) = if a = k then v else lookupKey a l := by
  induction l with
  | nil => cases v <;> simp [setKey, lookupKey, eq_comm]
  | cons c rest ih =>
    obtain ⟨j, y⟩ := c
    rw [List.pairwise_cons] at hl
    obtain ⟨hj, hrest⟩ := hl
    simp only [setKey]
    split
    · rename_i hjk
      simp only [lookupKey]
      split
      · rename_i hja
        rw [if_neg (by omega)]
      · exact ih hrest
    · split
      · rename_i hjk
        subst hjk
        cases v with
        | none =>
          simp only [Option.map_none, Option.toList_none, List.nil_append, lookupKey]
          by_cases haj : a = j
          · subst haj
            simpa using lookupKey_eq_none_of_lt hj
          · rw [if_neg haj, if_neg (Ne.symm haj)]
        | some x =>
          simp only [Option.map_some, Option.toList_some, List.cons_append, List.nil_append, lookupKey, eq_comm]
          split <;> rfl
      · rename_i hlt hne
        have hk : k < j := by omega
        cases v with
        | none =>
          simp only [Option.map_none, Option.toList_none, List.nil_append]
          split
          · rename_i hak
            subst hak
            apply lookupKey_eq_none_of_lt
            intro d hd
            rcases List.mem_cons.1 hd with rfl | hd
            · exact hk
            · exact lt_trans hk (hj d hd)
          · rfl
        | some x =>
          simp only [Option.map_some, Option.toList_some, List.cons_append, List.nil_append]
          rw [lookupKey]
          by_cases hak : a = k
          · rw [if_pos hak.symm, if_pos hak]
          · rw [if_neg (Ne.symm hak), if_neg hak]

/-- Every entry after a write is the written one or one that stood there before. -/
theorem mem_setKey {k : Nat} {v : Option α} {l : List (Nat × α)} {c : Nat × α} (h : c ∈ setKey k v l) :
    c.1 = k ∨ c ∈ l := by
  induction l with
  | nil =>
    cases v with
    | none => simp [setKey] at h
    | some x => simp only [setKey, Option.map_some, Option.toList_some, List.mem_singleton] at h; simp [h]
  | cons d rest ih =>
    obtain ⟨j, y⟩ := d
    simp only [setKey] at h
    split at h
    · rcases List.mem_cons.1 h with h | h
      · simp [h]
      · rcases ih h with h | h
        · exact .inl h
        · simp [h]
    · split at h <;> rcases List.mem_append.1 h with h | h
      · cases v <;> simp_all
      · simp [h]
      · cases v <;> simp_all
      · simp_all

/-- A write keeps the keys rising. -/
theorem pairwise_setKey {l : List (Nat × α)} (hl : l.Pairwise (fun a b => a.1 < b.1)) (k : Nat) (v : Option α) :
    (setKey k v l).Pairwise (fun a b => a.1 < b.1) := by
  induction l with
  | nil => cases v <;> simp [setKey]
  | cons c rest ih =>
    obtain ⟨j, y⟩ := c
    have hl' := hl
    rw [List.pairwise_cons] at hl
    obtain ⟨hj, hrest⟩ := hl
    simp only [setKey]
    split
    · rename_i hjk
      rw [List.pairwise_cons]
      refine ⟨fun d hd => ?_, ih hrest⟩
      rcases mem_setKey hd with h | h
      · omega
      · exact hj d h
    · split
      · rename_i hjk
        subst hjk
        cases v with
        | none => simpa using hrest
        | some x => simpa using ⟨fun a b h => hj (a, b) h, hrest⟩
      · rename_i hlt hne
        have hk : k < j := by omega
        cases v with
        | none => simpa using hl'
        | some x =>
          simp only [Option.map_some, Option.toList_some, List.cons_append, List.nil_append]
          rw [List.pairwise_cons]
          refine ⟨fun d hd => ?_, hl'⟩
          rcases List.mem_cons.1 hd with rfl | hd
          · exact hk
          · exact lt_trans hk (hj d hd)

/-- A write at a key below `2^64` keeps the canonical form. -/
theorem keysWf_setKey {l : List (Nat × α)} (hl : keysWf l) {k : Nat} (hk : k < addrLimit) (v : Option α) :
    keysWf (setKey k v l) := by
  refine ⟨pairwise_setKey hl.1 k v, fun c hc => ?_⟩
  rcases mem_setKey hc with h | h
  · omega
  · exact hl.2 c h

/-- Canonical maps that read alike at every key are equal. -/
theorem eq_of_lookupKey_eq {l m : List (Nat × α)} (hl : l.Pairwise (fun a b => a.1 < b.1))
    (hm : m.Pairwise (fun a b => a.1 < b.1)) (h : ∀ k, lookupKey k l = lookupKey k m) : l = m := by
  induction l generalizing m with
  | nil =>
    cases m with
    | nil => rfl
    | cons c rest => have := h c.1; simp [lookupKey] at this
  | cons c rest ih =>
    obtain ⟨j, y⟩ := c
    rw [List.pairwise_cons] at hl
    cases m with
    | nil => have := h j; simp [lookupKey] at this
    | cons d more =>
      obtain ⟨i, z⟩ := d
      rw [List.pairwise_cons] at hm
      have hij : i = j := by
        rcases Nat.lt_trichotomy i j with hlt | heq | hgt
        · have := h i
          rw [lookupKey, if_neg (by omega), lookupKey_eq_none_of_lt fun e he => lt_trans hlt (hl.1 e he)] at this
          simp [lookupKey] at this
        · exact heq
        · have := h j
          rw [lookupKey, if_pos rfl, lookupKey, if_neg (by omega),
            lookupKey_eq_none_of_lt fun e he => lt_trans hgt (hm.1 e he)] at this
          simp at this
      subst hij
      have hyz : y = z := by have := h i; simpa [lookupKey] using this
      subst hyz
      congr 1
      refine ih hl.2 hm.2 fun k => ?_
      by_cases hk : i = k
      · subst hk
        rw [lookupKey_eq_none_of_lt hl.1, lookupKey_eq_none_of_lt hm.1]
      · have := h k
        simpa [lookupKey, hk] using this

/-- Every function on the keys below `n` is what some list in canonical form answers: a sparse map can be any map. -/
theorem exists_lookupKey_eq (f : Nat → Option α) (n : Nat) :
    ∃ l : List (Nat × α), l.Pairwise (fun a b => a.1 < b.1) ∧ (∀ c ∈ l, c.1 < n) ∧
      ∀ k, lookupKey k l = if k < n then f k else none := by
  induction n with
  | zero => exact ⟨[], .nil, fun _ h => absurd h List.not_mem_nil, fun _ => rfl⟩
  | succ n ih =>
    obtain ⟨l, hp, hb, hl⟩ := ih
    refine ⟨setKey n (f n) l, pairwise_setKey hp n (f n), fun c hc => ?_, fun k => ?_⟩
    · rcases mem_setKey hc with h | h
      · omega
      · have := hb c h; omega
    · rw [lookupKey_setKey hp, hl]
      by_cases h : k = n
      · subst h; simp
      · rw [if_neg h]; exact if_congr (by omega) rfl rfl

end Keys

/-! ## The port's memory -/

@[simp] theorem Memory.byteAt_nil (a : Nat) : Memory.byteAt [] a = none := rfl

theorem Memory.byteAt_setByte {m : Memory} (hm : Memory.wf m) (k a : Nat) (b : Option Byte) :
    (Memory.setByte m k b).byteAt a = if a = k then b else m.byteAt a :=
  lookupKey_setKey hm.1 k a b

theorem Memory.wf_setByte {m : Memory} (hm : Memory.wf m) {k : Nat} (hk : k < addrLimit) (b : Option Byte) :
    Memory.wf (Memory.setByte m k b) :=
  keysWf_setKey hm hk b

theorem Memory.wf_setWord {m : Memory} (hm : Memory.wf m) {a : Nat} (ha : a + 4 ≤ addrLimit) (o : ByteOrder) (w : Word) :
    Memory.wf (Memory.setWord o m a w) := by
  unfold Memory.setWord
  exact wf_setByte (wf_setByte (wf_setByte (wf_setByte hm (by omega) _) (by omega) _) (by omega) _) (by omega) _

theorem Memory.wf_setWords {m : Memory} (hm : Memory.wf m) {a : Nat} (o : ByteOrder) {ws : List Word}
    (ha : a + 4 * ws.length ≤ addrLimit) : Memory.wf (Memory.setWords o m a ws) := by
  induction ws generalizing m a with
  | nil => exact hm
  | cons w rest ih =>
    simp only [List.length_cons] at ha
    exact ih (wf_setWord hm (by omega) o w) (by omega)

/-- The bytes of a stored word, and every other byte as before. -/
theorem Memory.byteAt_setWord {m : Memory} (hm : Memory.wf m) {a : Nat} (ha : a + 4 ≤ addrLimit) (o : ByteOrder) (w : Word)
    (x : Nat) :
    (Memory.setWord o m a w).byteAt x =
      if x = a + 3 then some (byteOfWord o w 3)
      else if x = a + 2 then some (byteOfWord o w 2)
      else if x = a + 1 then some (byteOfWord o w 1)
      else if x = a then some (byteOfWord o w 0)
      else m.byteAt x := by
  have h0 := wf_setByte hm (k := a) (by omega) (some (byteOfWord o w 0))
  have h1 := wf_setByte h0 (k := a + 1) (by omega) (some (byteOfWord o w 1))
  have h2 := wf_setByte h1 (k := a + 2) (by omega) (some (byteOfWord o w 2))
  unfold Memory.setWord
  rw [byteAt_setByte h2, byteAt_setByte h1, byteAt_setByte h0, byteAt_setByte hm]

/-- The bytes of a word assemble to the word, in either order. -/
theorem wordOfBytes_byteOfWord (o : ByteOrder) (w : Word) :
    wordOfBytes o (byteOfWord o w 0) (byteOfWord o w 1) (byteOfWord o w 2) (byteOfWord o w 3) = w := by
  have key : w.extractLsb' 24 8 ++ w.extractLsb' 16 8 ++ w.extractLsb' 8 8 ++ w.extractLsb' 0 8 = w := by
    apply BitVec.eq_of_getLsbD_eq
    intro i hi
    have same : ∀ a b : Nat, a = b → w.getLsbD a = w.getLsbD b := fun a b h => h ▸ rfl
    simp only [BitVec.getLsbD_append, BitVec.getLsbD_extractLsb']
    by_cases h1 : i < 8
    · simp [h1]
    · by_cases h2 : i < 16
      · simpa [h1, show i - 8 < 8 by omega] using same _ _ (by omega)
      · by_cases h3 : i < 24
        · simpa [h1, show ¬ i - 8 < 8 by omega, show i - 8 - 8 < 8 by omega] using same _ _ (by omega)
        · simpa [h1, show ¬ i - 8 < 8 by omega, show ¬ i - 8 - 8 < 8 by omega, show i - 8 - 8 - 8 < 8 by omega]
            using same _ _ (by omega)
  cases o <;> exact key

/-- A memory-backed port reads back a stored word at an address it takes (R44). -/
theorem memoryRead_setWord {m : Memory} (hm : Memory.wf m) {a : Nat} (ha : a + 4 ≤ addrLimit) (o : ByteOrder)
    {al : Bool} (hp : al = true → a % 4 = 0) (w : Word) :
    memoryRead o al (Memory.setWord o m a w) a = some w := by
  have hal : (al && a % 4 != 0) = false := by
    cases al
    · rfl
    · simp [hp rfl]
  unfold memoryRead
  rw [hal]
  simp [Memory.byteAt_setWord hm ha, wordOfBytes_byteOfWord]

end Sys2Proof.Machine
end

