-- ==== Sys2Proof/Laws/Ops.lean ====
section
/-! SUPPORT. For each shared operation, one lemma that says all it can do; the provers cite these and unfold no operation. -/

namespace Sys2Proof.Machine

open Sys2Proof

/-! ## Reads -/

/-- A read at the cursor answers exactly where the port does, and does nothing but move the cursor and leave a READ. -/
theorem readAtCursor_eq_some {s t : State} {w : Word} :
    s.readAtCursor = some (w, t) ↔
      s.memRead s.cur = some w ∧ t = { s with cur := s.cur + 4, trace := s.trace ++ [.read s.cur w] } := by
  unfold State.readAtCursor
  cases h : s.memRead s.cur with
  | none => simp
  | some v =>
    simp only [Option.some.injEq, Prod.mk.injEq]
    constructor
    · rintro ⟨rfl, rfl⟩; exact ⟨rfl, rfl⟩
    · rintro ⟨rfl, rfl⟩; exact ⟨rfl, rfl⟩

theorem readAtCursor_eq_none {s : State} : s.readAtCursor = none ↔ s.memRead s.cur = none := by
  unfold State.readAtCursor
  cases s.memRead s.cur <;> simp

/-- A read that would pass `2^64` makes no port call and fails (R42). -/
theorem memRead_eq_none_of_limit {s : State} {a : Nat} (h : addrLimit < a + 4) : s.memRead a = none := by
  unfold State.memRead
  rw [if_neg (by omega)]

/-- A read that succeeds lies below `2^64` (R42). -/
theorem add_four_le_of_memRead {s : State} {a : Nat} {w : Word} (h : s.memRead a = some w) : a + 4 ≤ addrLimit := by
  by_contra hn
  rw [memRead_eq_none_of_limit (by omega)] at h
  cases h

/-- A read depends on the parameters of the port, on its memory and on its answers alone. -/
theorem memRead_congr {s t : State} (hp : s.cfg.port = t.cfg.port) (hm : s.mem = t.mem) (ha : s.answers = t.answers)
    (a : Nat) : s.memRead a = t.memRead a := by
  unfold State.memRead State.portRead
  rw [hp, hm, ha]

/-- A read of a port given answer by answer (R41, R42): the answer listed at the address. -/
theorem memRead_table {s : State} (hp : s.cfg.port = .table) {a : Nat} (ha : a + 4 ≤ addrLimit) :
    s.memRead a = lookupKey a s.answers := by
  unfold State.memRead State.portRead
  rw [if_pos ha, hp]

/-- A read of a memory-backed port (R42, R44). -/
theorem memRead_memory {s : State} {o : ByteOrder} {al : Bool} (hp : s.cfg.port = .memory o al) {a : Nat}
    (ha : a + 4 ≤ addrLimit) : s.memRead a = memoryRead o al s.mem a := by
  unfold State.memRead State.portRead
  rw [if_pos ha, hp]

/-! ## Fetches -/

theorem fetchHeader_of_memRead {s : State} {w : Word} (h : s.memRead s.cur = some w) :
    s.fetchHeader =
      .run (decodeWord s.cfg.profile w)
        { s with cur := s.cur + 4, trace := s.trace ++ [.read s.cur w], hdrAddr := s.cur, hdrWord := w } := by
  unfold State.fetchHeader
  rw [readAtCursor_eq_some.2 ⟨h, rfl⟩]

theorem fetchHeader_of_memRead_none {s : State} (h : s.memRead s.cur = none) :
    s.fetchHeader = .raised (s.raise (noRunRecord .port)) := by
  unfold State.fetchHeader
  rw [readAtCursor_eq_none.2 h]

theorem fetchCall_of_memRead {s : State} {w : Word} (h : s.memRead s.cur = some w) :
    s.fetchCall =
      .run
        (decodeCall (methodOf s.hdr s.argi)
          { subchannel := s.hdr.fields.subchannel, value := w, remaining := remainingOf (argCountOf s.hdr) s.argi })
        { s with cur := s.cur + 4, trace := s.trace ++ [.read s.cur w] } := by
  unfold State.fetchCall
  rw [readAtCursor_eq_some.2 ⟨h, rfl⟩]

theorem fetchCall_of_memRead_none {s : State} (h : s.memRead s.cur = none) :
    s.fetchCall =
      .raised (s.raise (s.callRecord .port (methodOf s.hdr s.argi) s.hdr.fields.subchannel none)) := by
  unfold State.fetchCall
  rw [readAtCursor_eq_none.2 h]

/-! ## The binding table -/

theorem bindAt_setBind (s : State) (sc a : SubCh) (v : Word) :
    (s.setBind sc v).bindAt a = if a = sc then some v else s.bindAt a := by
  unfold State.bindAt State.setBind
  simp only [Vector.getElem_set]
  by_cases h : a = sc
  · subst h; simp
  · rw [if_neg h, if_neg fun e => h (BitVec.eq_of_toNat_eq e.symm)]

theorem bindAt_congr {s t : State} (h : s.bind = t.bind) (a : SubCh) : s.bindAt a = t.bindAt a := by
  unfold State.bindAt
  simp [h]

@[simp] theorem bindAt_resetBlock (s : State) (a : SubCh) : s.resetBlock.bindAt a = none := by
  unfold State.bindAt
  simp

@[simp] theorem bindAt_resetWith (c : Config) (a : SubCh) : (State.resetWith c).bindAt a = none := by
  unfold State.bindAt
  simp [State.resetWith]

/-! ## Host actions -/

/-- The host's change of one translation reads back, and every other translation stays (R54). -/
theorem translate_setTranslation {s : State} (hs : keysWf s.tmap) (va x : Addr) (lin : Option Addr) :
    (s.takeRequest (.setTranslation va lin)).translate x = if x = va then lin else s.translate x := by
  simp only [State.takeRequest, State.translate, lookupKey_setKey hs.1, BitVec.toNat_inj]

/-- The host's change of one answer reads back, and every other answer stays (R54). -/
theorem lookupKey_setAnswer {s : State} (hs : keysWf s.answers) (a : Addr) (x : Nat) (w : Option Word) :
    lookupKey x (s.takeRequest (.setAnswer a w)).answers = if x = a.toNat then w else lookupKey x s.answers :=
  lookupKey_setKey hs.1 a.toNat x w

/-- The start of a call either enters `Header` at the translated base or raises `F_PORT` (R120, R157). -/
theorem startCall_cases (s : State) (base : Addr) (count : Word) :
    (∃ lin, s.translate base = some lin ∧
      s.startCall base count =
        { s with
          cur := lin.toNat, endAddr := lin.toNat + count.toNat * 4, phase := .header
          trace := s.trace ++ [.translate base lin] }) ∨
    (s.translate base = none ∧ s.startCall base count = s.raise (noRunRecord .port)) := by
  unfold State.startCall
  cases h : s.translate base with
  | none => exact .inr ⟨rfl, rfl⟩
  | some lin => exact .inl ⟨lin, rfl, rfl⟩

/-! ## The run of a header -/

theorem startRun_cases (s : State) (h : Header) :
    (argCountOf h = 0 ∧ s.startRun h = s) ∨
    (argCountOf h ≠ 0 ∧ s.startRun h = { s with phase := .args, hdr := h, argi := 0 }) := by
  unfold State.startRun
  split
  · exact .inl ⟨‹_›, rfl⟩
  · exact .inr ⟨‹_›, rfl⟩

theorem advanceRun_cases (s : State) :
    (s.phase = .args ∧ s.argi + 1 = argCountOf s.hdr ∧ s.advanceRun = { s with phase := .header }) ∨
    (s.phase = .args ∧ s.argi + 1 ≠ argCountOf s.hdr ∧ s.advanceRun = { s with argi := s.argi + 1 }) ∨
    (s.phase ≠ .args ∧ s.advanceRun = s) := by
  unfold State.advanceRun
  cases h : s.phase with
  | args =>
    simp only
    split
    · exact .inl ⟨trivial, ‹_›, rfl⟩
    · exact .inr (.inl ⟨trivial, ‹_›, rfl⟩)
  | idle => exact .inr (.inr ⟨by simp, rfl⟩)
  | header => exact .inr (.inr ⟨by simp, rfl⟩)
  | faulted => exact .inr (.inr ⟨by simp, rfl⟩)

/-! ## The dispatcher -/

/-- The dispatcher does what the classified call does. -/
theorem dispatch_eq_exec (m : Word) (a : CallArgs) (s : State) : dispatch m a s = exec (decodeCall m a) s := by
  unfold dispatch decodeCall
  cases classify m with
  | otherControl => dsimp only; split <;> rfl
  | macroEntry => rfl
  | macroArg => rfl
  | bind => rfl
  | engineForward => rfl

/-- `classify` told as ranges of the method (R68, R69). -/
theorem classify_spec (m : Word) :
    (classify m = .macroEntry ↔ m = 0x47) ∧ (classify m = .macroArg ↔ m = 0x46) ∧ (classify m = .bind ↔ m = 0x00) ∧
      (classify m = .otherControl ↔ m.toNat < 0x100 ∧ m ≠ 0x47 ∧ m ≠ 0x46 ∧ m ≠ 0x00) ∧
      (classify m = .engineForward ↔ 0x100 ≤ m.toNat) := by
  unfold classify
  split
  · rename_i h; subst h; decide
  · split
    · rename_i h; subst h; decide
    · split
      · rename_i h; subst h; decide
      · split <;> simp_all

/-- What a call of the dispatcher can do: at most one of the writes and events of its rule, or a fault alone (R90, R104). -/
theorem dispatch_cases (m : Word) (a : CallArgs) (s : State) :
    (∃ e, classify m = .macroEntry ∧ e = MacroUpload.accumulating a.value [] ∧ dispatch m a s = .next (s.setUpload e)) ∨
    (∃ e c, classify m = .macroArg ∧ s.upload = .accumulating e c ∧ a.remaining = 0 ∧
      dispatch m a s = .next (s.flush e (c ++ [a.value]))) ∨
    (∃ e c, classify m = .macroArg ∧ s.upload = .accumulating e c ∧ a.remaining ≠ 0 ∧
      dispatch m a s = .next (s.setUpload (.accumulating e (c ++ [a.value])))) ∨
    (classify m = .bind ∧ s.bindAt a.subchannel = none ∧ dispatch m a s = .next (s.setBind a.subchannel a.value)) ∨
    (classify m = .otherControl ∧ dispatch m a s = .next (s.diagUnimplemented m a)) ∨
    (∃ cls e, classify m = .engineForward ∧ s.bindAt a.subchannel = some cls ∧ forwardEvent s.cfg cls m a = some e ∧
      dispatch m a s = .next (s.emit e)) ∨
    (∃ r, dispatch m a s = .next (s.raise r) ∧
      ((classify m = .macroArg ∧ s.upload = .idle ∧ r = s.callRecord .macroNoEntry m a.subchannel (some a.value)) ∨
       (classify m = .bind ∧ s.bindAt a.subchannel ≠ none ∧
         r = s.callRecord .bindConflict m a.subchannel (some a.value)) ∨
       (classify m = .engineForward ∧ s.bindAt a.subchannel = none ∧
         r = s.callRecord .unboundSubchannel m a.subchannel (some a.value)) ∨
       (∃ cls, classify m = .engineForward ∧ s.bindAt a.subchannel = some cls ∧ forwardEvent s.cfg cls m a = none ∧
         r = s.callRecord .unknownEngine m a.subchannel (some a.value)))) := by
  have hspec := classify_spec m
  unfold dispatch
  cases hc : classify m with
  | macroEntry => exact .inl ⟨_, rfl, rfl, rfl⟩
  | macroArg =>
    have hm : m = 0x46 := hspec.2.1.1 hc
    subst hm
    simp only [execSetGraphMacroCodeArg]
    cases hu : s.upload with
    | idle => simp
    | accumulating e c =>
      by_cases hr : a.remaining = 0
      · exact .inr (.inl ⟨e, c, trivial, rfl, hr, if_pos hr⟩)
      · exact .inr (.inr (.inl ⟨e, c, trivial, rfl, hr, if_neg hr⟩))
  | bind =>
    have hm : m = 0x00 := hspec.2.2.1.1 hc
    subst hm
    simp only [execBindObject]
    cases hb : s.bindAt a.subchannel <;> simp
  | otherControl =>
    right; right; right; right; left
    refine ⟨rfl, ?_⟩
    dsimp only
    split
    · rename_i h; subst h; rfl
    · rfl
  | engineForward =>
    simp only [execEngineForward]
    cases hb : s.bindAt a.subchannel with
    | none => simp
    | some cls => cases hf : forwardEvent s.cfg cls m a <;> simp [hf]

/-- A forwarded write is an event of the dispatcher (R99 to R101). -/
theorem ofDispatch_of_forwardEvent {c : Config} {cls m : Word} {a : CallArgs} {e : Event}
    (h : forwardEvent c cls m a = some e) : e.ofDispatch = true := by
  unfold forwardEvent at h
  split at h
  · cases h; rfl
  · split at h
    · cases h; rfl
    · split at h
      · cases h; rfl
      · cases h

/-! ## The step -/

theorem step_of_idle {s : State} (h : s.phase = .idle) : step s = stepIdle s := by unfold step; rw [h]

theorem step_of_header {s : State} (h : s.phase = .header) : step s = stepHeader s := by unfold step; rw [h]

theorem step_of_args {s : State} (h : s.phase = .args) : step s = stepArgs s := by unfold step; rw [h]

theorem step_of_faulted {s : State} (h : s.phase = .faulted) : step s = stepFaulted s := by unfold step; rw [h]

/-- Inside the region a step reads a header and runs it, or raises `F_PORT`. -/
theorem stepHeader_of_lt {s : State} (hc : s.cur < s.endAddr) :
    (∃ w, s.memRead s.cur = some w ∧
      stepHeader s =
        exec (decodeWord s.cfg.profile w)
          { s with cur := s.cur + 4, trace := s.trace ++ [.read s.cur w], hdrAddr := s.cur, hdrWord := w }) ∨
    (s.memRead s.cur = none ∧ stepHeader s = .next (s.raise (noRunRecord .port))) := by
  unfold stepHeader
  rw [if_pos hc]
  cases h : s.memRead s.cur with
  | none => rw [fetchHeader_of_memRead_none h]; exact .inr ⟨rfl, rfl⟩
  | some w => rw [fetchHeader_of_memRead h]; exact .inl ⟨w, rfl, rfl⟩

/-- In a run a step reads an argument word and makes the run's next call, or raises `F_PORT`. -/
theorem stepArgs_cases (s : State) :
    (∃ w, s.memRead s.cur = some w ∧
      stepArgs s =
        afterCall
          (exec
            (decodeCall (methodOf s.hdr s.argi)
              { subchannel := s.hdr.fields.subchannel, value := w, remaining := remainingOf (argCountOf s.hdr) s.argi })
            { s with cur := s.cur + 4, trace := s.trace ++ [.read s.cur w] })) ∨
    (s.memRead s.cur = none ∧
      stepArgs s =
        .next (s.raise (s.callRecord .port (methodOf s.hdr s.argi) s.hdr.fields.subchannel none))) := by
  unfold stepArgs
  cases h : s.memRead s.cur with
  | none => rw [fetchCall_of_memRead_none h]; exact .inr ⟨rfl, rfl⟩
  | some w => rw [fetchCall_of_memRead h]; exact .inl ⟨w, rfl, rfl⟩

/-! ## Runs of steps -/

theorem run_succ_of_next {s t : State} {k : Nat} (h : step s = .next t) :
    Host.Core.run Sys2Proof.core (k + 1) s = Host.Core.run Sys2Proof.core k t := by
  have hs : Sys2Proof.core.step s = .next t := h
  simp [Host.Core.run, hs]

@[simp] theorem run_zero (s : State) : Host.Core.run Sys2Proof.core 0 s = .next s := rfl

/-- Runs join end to end. -/
theorem run_add {j k : Nat} {s t : State} (h : Host.Core.run Sys2Proof.core j s = .next t) :
    Host.Core.run Sys2Proof.core (j + k) s = Host.Core.run Sys2Proof.core k t := by
  induction j generalizing s with
  | zero => cases h; simp
  | succ j ih =>
    rw [show j + 1 + k = (j + k) + 1 by omega]
    have hstep : ∃ u, step s = .next u := by
      cases hs : step s with
      | next u => exact ⟨u, rfl⟩
      | fault r =>
        have hs' : Sys2Proof.core.step s = .fault r := hs
        simp [Host.Core.run, hs'] at h
      | refused r =>
        have hs' : Sys2Proof.core.step s = .refused r := hs
        simp [Host.Core.run, hs'] at h
    obtain ⟨u, hu⟩ := hstep
    rw [run_succ_of_next hu] at h
    rw [run_succ_of_next hu]
    exact ih h

end Sys2Proof.Machine
end

