-- ==== Sys2Proof/Laws/PerInstr.lean ====
section
/-! SUPPORT. The encoding of each instruction reads back as the instruction: one lemma for each constructor of `Instr`. -/

namespace Sys2Proof

/-- Both mode codings read back (R62, R63). -/
theorem modeOf_modeCode (p : HdrProfile) (m : Mode) : modeOf p (modeCode p m) = m := by
  cases p <;> cases m <;> rfl

/-- Where the five fields of a `PROFILE_DOC` word lie (R61). -/
theorem fields_of_append_doc (c : BitVec 3) (d : BitVec 11) (n : BitVec 2) (sc : BitVec 3) (m : BitVec 13) :
    (c ++ d ++ n ++ sc ++ m).extractLsb' 0 13 = m ∧ (c ++ d ++ n ++ sc ++ m).extractLsb' 13 3 = sc ∧
      (c ++ d ++ n ++ sc ++ m).extractLsb' 16 2 = n ∧ (c ++ d ++ n ++ sc ++ m).extractLsb' 18 11 = d ∧
      (c ++ d ++ n ++ sc ++ m).extractLsb' 29 3 = c := by
  refine ⟨?_, ?_, ?_, ?_, ?_⟩ <;> apply BitVec.eq_of_getLsbD_eq <;> intro i hi <;>
    simp only [BitVec.getLsbD_extractLsb', BitVec.getLsbD_append]
  · simp [hi]
  · simp [hi]
  · simp [hi, show ¬ 16 + i < 13 by omega, show 16 + i - 13 = 3 + i by omega]
  · simp [hi, show ¬ 18 + i < 13 by omega, show 18 + i - 13 = 5 + i by omega,
      show ¬ 5 + i < 3 by omega, show 5 + i - 3 = 2 + i by omega, show ¬ 2 + i < 2 by omega]
  · simp [hi, show ¬ 29 + i < 13 by omega, show 29 + i - 13 = 16 + i by omega,
      show ¬ 16 + i < 3 by omega, show 16 + i - 3 = 13 + i by omega, show ¬ 13 + i < 2 by omega,
      show 13 + i - 2 = 11 + i by omega]

/-- Where the four fields of a `PROFILE_UPSTREAM` word lie (R63). -/
theorem fields_of_append_upstream (c : BitVec 3) (n : BitVec 13) (sc : BitVec 3) (m : BitVec 13) :
    (c ++ n ++ sc ++ m).extractLsb' 0 13 = m ∧ (c ++ n ++ sc ++ m).extractLsb' 13 3 = sc ∧
      (c ++ n ++ sc ++ m).extractLsb' 16 13 = n ∧ (c ++ n ++ sc ++ m).extractLsb' 29 3 = c := by
  refine ⟨?_, ?_, ?_, ?_⟩ <;> apply BitVec.eq_of_getLsbD_eq <;> intro i hi <;>
    simp only [BitVec.getLsbD_extractLsb', BitVec.getLsbD_append]
  · simp [hi]
  · simp [hi]
  · simp [hi, show ¬ 16 + i < 13 by omega, show 16 + i - 13 = 3 + i by omega]
  · simp [hi, show ¬ 29 + i < 13 by omega, show 29 + i - 13 = 16 + i by omega,
      show ¬ 16 + i < 3 by omega, show 16 + i - 3 = 13 + i by omega]

/-- A header whose fields the profile can hold reads back from its word (R61, R63, R80). -/
theorem decodeHeader_encodeHeader (p : HdrProfile) (h : Header) (hf : h.fields.wf p = true) :
    decodeHeader p (encodeHeader p h) = h := by
  obtain ⟨⟨m, sc, n, d⟩, mode⟩ := h
  cases p with
  | doc =>
    simp only [HeaderFields.wf, Bool.and_eq_true, decide_eq_true_eq] at hf
    have hn : (n.setWidth 2).setWidth 13 = n := by
      apply BitVec.eq_of_toNat_eq; simp; omega
    have hd : (d.setWidth 11).setWidth 13 = d := by
      apply BitVec.eq_of_toNat_eq; simp; omega
    obtain ⟨h1, h2, h3, h4, h5⟩ :=
      fields_of_append_doc (modeCode .doc mode) (d.setWidth 11) (n.setWidth 2) sc m
    simp only [decodeHeader, encodeHeader]
    rw [h1, h2, h3, h4, h5, hn, hd, modeOf_modeCode]
  | upstream =>
    simp only [HeaderFields.wf, beq_iff_eq] at hf
    subst hf
    obtain ⟨h1, h2, h3, h5⟩ := fields_of_append_upstream (modeCode .upstream mode) n sc m
    simp only [decodeHeader, encodeHeader, ite_self]
    rw [h1, h2, h3, h5, modeOf_modeCode]

/-- A method of the row OtherControl is classified there and is not SetGraphMacroCode (R68, R69). -/
theorem decodeCall_otherControl {m : Word} (h : isOtherControl m = true) (a : CallArgs) :
    decodeCall m a = .otherControl m a := by
  simp only [isOtherControl, Bool.and_eq_true, decide_eq_true_eq, bne_iff_ne] at h
  obtain ⟨⟨⟨⟨h1, h2⟩, h3⟩, h4⟩, h5⟩ := h
  have hc : classify m = .otherControl := (Machine.classify_spec m).2.2.2.1.2 ⟨h1, h5, h4, h2⟩
  simp only [decodeCall, hc, if_neg h3]

/-- A method of the engine range is forwarded (R68, R69). -/
theorem decodeCall_engineForward {m : Word} (h : 0x100 ≤ m.toNat) (a : CallArgs) :
    decodeCall m a = .engineForward m a := by
  have hc : classify m = .engineForward := (Machine.classify_spec m).2.2.2.2.2 h
  simp [decodeCall, hc]

namespace Laws.EncodingRoundTrip

/-- A well-formed header reads back from its word, and a well-formed call from its method value and its operands. -/
def Statement (i : Instr) : Prop :=
  ∀ p, i.wf p = true →
    (i.header? ≠ none → decodeWord p (encode p i) = i) ∧
    (∀ m a, i.call? = some (m, a) → encode p i = m ∧ decodeCall m a = i)

theorem of_header {i : Instr} {h : Header} (hi : h.toInstr = i) (hc : i.call? = none)
    (he : ∀ p, encode p i = encodeHeader p h) (hw : ∀ p, i.wf p = h.fields.wf p) : Statement i := by
  intro p hp
  refine ⟨fun _ => ?_, fun m a hm => ?_⟩
  · unfold decodeWord
    rw [he, decodeHeader_encodeHeader p h (by rw [← hw]; exact hp), hi]
  · rw [hc] at hm
    cases hm

theorem increasingOld (f : HeaderFields) : Statement (.increasingOld f) :=
  of_header (h := ⟨f, .increasingOld⟩) rfl rfl (fun _ => rfl) (fun _ => rfl)

theorem increasing (f : HeaderFields) : Statement (.increasing f) :=
  of_header (h := ⟨f, .increasing⟩) rfl rfl (fun _ => rfl) (fun _ => rfl)

theorem nonIncreasingOld (f : HeaderFields) : Statement (.nonIncreasingOld f) :=
  of_header (h := ⟨f, .nonIncreasingOld⟩) rfl rfl (fun _ => rfl) (fun _ => rfl)

theorem nonIncreasing (f : HeaderFields) : Statement (.nonIncreasing f) :=
  of_header (h := ⟨f, .nonIncreasing⟩) rfl rfl (fun _ => rfl) (fun _ => rfl)

theorem increaseOnce (f : HeaderFields) : Statement (.increaseOnce f) :=
  of_header (h := ⟨f, .increaseOnce⟩) rfl rfl (fun _ => rfl) (fun _ => rfl)

theorem inlineHeader (f : HeaderFields) : Statement (.inlineHeader f) :=
  of_header (h := ⟨f, .inlineMode⟩) rfl rfl (fun _ => rfl) (fun _ => rfl)

theorem invalidMode6 (f : HeaderFields) : Statement (.invalidMode6 f) :=
  of_header (h := ⟨f, .invalid6⟩) rfl rfl (fun _ => rfl) (fun _ => rfl)

theorem invalidMode7 (f : HeaderFields) : Statement (.invalidMode7 f) :=
  of_header (h := ⟨f, .invalid7⟩) rfl rfl (fun _ => rfl) (fun _ => rfl)

theorem setGraphMacroEntry (a : CallArgs) : Statement (.setGraphMacroEntry a) := by
  intro p _
  refine ⟨fun h => (h rfl).elim, fun m b hm => ?_⟩
  cases hm
  exact ⟨rfl, rfl⟩

theorem setGraphMacroCodeArg (a : CallArgs) : Statement (.setGraphMacroCodeArg a) := by
  intro p _
  refine ⟨fun h => (h rfl).elim, fun m b hm => ?_⟩
  cases hm
  exact ⟨rfl, rfl⟩

theorem bindObject (a : CallArgs) : Statement (.bindObject a) := by
  intro p _
  refine ⟨fun h => (h rfl).elim, fun m b hm => ?_⟩
  cases hm
  exact ⟨rfl, rfl⟩

theorem setGraphMacroCode (a : CallArgs) : Statement (.setGraphMacroCode a) := by
  intro p _
  refine ⟨fun h => (h rfl).elim, fun m b hm => ?_⟩
  cases hm
  exact ⟨rfl, rfl⟩

theorem otherControl (m : Word) (a : CallArgs) : Statement (.otherControl m a) := by
  intro p hp
  refine ⟨fun h => (h rfl).elim, fun n b hm => ?_⟩
  cases hm
  exact ⟨rfl, decodeCall_otherControl hp a⟩

theorem engineForward (m : Word) (a : CallArgs) : Statement (.engineForward m a) := by
  intro p hp
  refine ⟨fun h => (h rfl).elim, fun n b hm => ?_⟩
  cases hm
  exact ⟨rfl, decodeCall_engineForward (by simpa [Instr.wf] using hp) a⟩

end Laws.EncodingRoundTrip

end Sys2Proof
end

