-- ==== Sys2Proof/Tests/Slice0.lean ====
section
/-! SUPPORT. Tests of the model, their expected values taken from the spec (95_test_vectors.md and the examples of its rules),
and, for every statement of Certificates/Slice0 with hypotheses, a state and operands that meet them all (the theorems named
`witness_…`). -/

namespace Sys2Proof.Tests

open Sys2Proof Sys2Proof.Machine

/-! ## Small states -/

/-- The next state of an outcome. -/
def next? (o : Host.Outcome State Fault Refusal) : Option State :=
  match o with
  | .next t => some t
  | .fault _ => none
  | .refused _ => none

/-- The conventions of 95_test_vectors.md: after reset, words stored little-endian from 0x1000, `TMAP` the identity there. -/
def stream (ws : List Word) : State :=
  { State.reset with mem := Memory.setWords .little [] 0x1000 ws, tmap := [(0x1000, 0x1000)] }

/-- A call over a stream, at its first word. -/
def atHeader (ws : List Word) : State :=
  { stream ws with phase := .header, cur := 0x1000, endAddr := 0x1000 + 4 * ws.length }

/-- A run of the header word `w` at 0x1000, whose call `i` takes the word `v`. -/
def inRun (w : Word) (i : Nat) (v : Word) : State :=
  { stream [] with
    mem := Memory.setWord .little [] (0x1004 + 4 * i) v
    phase := .args, cur := 0x1004 + 4 * i, endAddr := 0x1004, hdr := decodeHeader .doc w, argi := i
    hdrAddr := 0x1000, hdrWord := w }

/-- The events that a step adds, READ left out as in 95_test_vectors.md. -/
def events (s : State) : Option (List Event) :=
  (next? (step s)).map fun t => (t.trace.drop s.trace.length).filter fun e => match e with
    | .read _ _ => false
    | _ => true

/-! ## WellFormed -/

theorem test_wf_refuses_fields_too_wide_for_the_doc_profile :
    [(⟨0x200, 0, 4, 0⟩ : HeaderFields), ⟨0x200, 0, 0, 0x800⟩].all (fun f =>
      [Instr.increasingOld f, .increasing f, .nonIncreasingOld f, .nonIncreasing f, .increaseOnce f, .inlineHeader f,
        .invalidMode6 f, .invalidMode7 f].all fun i => !i.wf .doc) = true := by decide

theorem test_wf_refuses_two_values_of_the_shared_upstream_field :
    [Instr.increasing ⟨0x200, 0, 4, 5⟩, .inlineHeader ⟨0x200, 0, 0, 1⟩].all (fun i => !i.wf .upstream) = true := by decide

theorem test_wf_refuses_methods_of_other_rows :
    [(0x00 : Word), 0x45, 0x46, 0x47, 0x100].all (fun m => !(Instr.otherControl m ⟨0, 0, 0⟩).wf .doc) = true := by decide

theorem test_wf_refuses_a_control_method_as_engine_forward :
    (Instr.engineForward 0xFF ⟨0, 0, 0⟩).wf .doc = false := by decide

theorem test_wf_refuses_equal_class_values :
    ∀ c ∈ [{ Config.t1 with classFermiTwoD := 7 }, { Config.t1 with classMaxwellCompute := 7 },
      { Config.t1 with classMaxwellCompute := 0x20 }], c.wf = false := by decide

/-! ## Decoding: words written out bit by bit, `ooo ddddddddddd nn sss mmmmmmmmmmmmm` (R61) -/

theorem test_decode_increasingOld :
    decodeWord .doc 0b00000000000000010010000000000000 = .increasingOld ⟨0, 1, 1, 0⟩ := by decide

theorem test_decode_increasing :
    decodeWord .doc 0b00100000000000110000001000000000 = .increasing ⟨0x200, 0, 3, 0⟩ := by decide

theorem test_decode_nonIncreasingOld :
    decodeWord .doc 0b01011111111111000000000100100011 = .nonIncreasingOld ⟨0x123, 0, 0, 0x7FF⟩ := by decide

theorem test_decode_nonIncreasing :
    decodeWord .doc 0b01100000000000110000000001000110 = .nonIncreasing ⟨0x46, 0, 3, 0⟩ := by decide

theorem test_decode_increaseOnce :
    decodeWord .doc 0b10000000000000100110000100000000 = .increaseOnce ⟨0x100, 3, 2, 0⟩ := by decide

theorem test_decode_inline :
    decodeWord .doc 0b10110110100101000000001000000000 = .inlineHeader ⟨0x200, 0, 0, 0x5A5⟩ := by decide

theorem test_decode_invalidMode6 :
    decodeWord .doc 0b11000000000000000000000000000000 = .invalidMode6 ⟨0, 0, 0, 0⟩ := by decide

theorem test_decode_invalidMode7 :
    decodeWord .doc 0b11111111111111111111111111111111 = .invalidMode7 ⟨0x1FFF, 7, 3, 0x7FF⟩ := by decide

/-- R63: the inline packet of section 2 under the other profile, and IncreaseOnce there. -/
theorem test_decode_upstream :
    decodeWord .upstream 0x85A50200 = .inlineHeader ⟨0x200, 0, 0x5A5, 0x5A5⟩ ∧
    decodeWord .upstream 0xA0026100 = .increaseOnce ⟨0x100, 3, 2, 2⟩ := by decide

/-- R68: one method value for each method row. -/
theorem test_decode_methods :
    let a : CallArgs := ⟨3, 9, 2⟩
    decodeCall 0x47 a = .setGraphMacroEntry a ∧ decodeCall 0x46 a = .setGraphMacroCodeArg a ∧
    decodeCall 0x00 a = .bindObject a ∧ decodeCall 0x45 a = .setGraphMacroCode a ∧
    decodeCall 0xFF a = .otherControl 0xFF a ∧ decodeCall 0x100 a = .engineForward 0x100 a := by decide

/-- A table word of each kind, and bytes that are no word. -/
theorem test_decodeTableWord :
    decodeTableWord 32 0x80026100 = some (.increaseOnce ⟨0x100, 3, 2, 0⟩) ∧
    decodeTableWord 32 0x47 = some (.setGraphMacroEntry tableCallArgs) ∧
    decode .doc .little [0, 0, 1] = .error .fewerThanFourBytes := by decide

/-- The step after `withFetchWord` runs the table's instruction: TV-M7 at address 0, and a SetGraphMacroEntry of value 0. -/
theorem test_withFetchWord_is_run :
    (next? (step (State.reset.withFetchWord 32 0xC0000000))).map (fun t => t.fault.map (fun r => (r.code, r.hdrWord))) =
      some (some (.unknownMode, some 0xC0000000)) ∧
    (next? (step (State.reset.withFetchWord 32 0x47))).map (fun t => t.upload) = some (.accumulating 0 []) := by decide

/-- Programs 1 and 2 (R71, R72). -/
theorem test_assembler_words :
    assemble .doc [asmBind 0 7, .inc 0 0x200 [1, 2, 3], .imm 0 0x210 0x5A5] =
      .ok [0x00010000, 7, 0x20030200, 1, 2, 3, 0xB6940210] ∧
    asmMacroUpload 0x10 [0xAAA1, 0xAAA2, 0xAAA3] = .ok [.inco 0 0x47 [0x10], .ninc 0 0x46 [0xAAA1, 0xAAA2, 0xAAA3]] ∧
    assembleLine .doc (.ninc 0 0x46 [0xAAA1, 0xAAA2, 0xAAA3]) = .ok [0x60030046, 0xAAA1, 0xAAA2, 0xAAA3] := by decide

/-- What the assembler refuses (R71). -/
theorem test_assembler_refusals :
    assembleLine .doc (.inc 0 0 [1, 2, 3, 4]) = .error .argumentsDoNotFit ∧
    assembleLine .doc (.imm 0 0 0x800) = .error .immediateDoesNotFit ∧
    assembleLine .doc (.imm 8 0 0) = .error .subchannelDoesNotFit ∧
    assembleLine .doc (.imm 0 0x2000 0) = .error .methodDoesNotFit ∧
    assembleLine .doc (.once 0 0 []) = .error .onceWithoutArgument := by decide

/-! ## Headers, one step each -/

/-- TV-S8: the header of the end-to-end scenario begins a run of one call. -/
theorem test_increasingOld_begins_its_run :
    (next? (step (atHeader [0x00010000, 7]))).map (fun t => (t.phase, t.cur, t.argi, argCountOf t.hdr)) =
      some (.args, 0x1004, 0, 1) := by decide

/-- TV-M2, its second call. -/
theorem test_increasingOld_second_call :
    events ((inRun 0x00030200 1 2).setBind 0 7) = some [.write3D 0x201 2 1] := by decide

/-- TV-M1: no argument words, no call. -/
theorem test_increasing_without_arguments :
    (next? (step (atHeader [0x20000300]))).map (fun t => (t.phase, t.cur)) = some (.header, 0x1004) := by decide

/-- TV-H1: the second call of an Increasing run from 0x46 goes to 0x47. -/
theorem test_increasing_from_0x46_discards :
    (next? (step ((inRun 0x20030046 1 2).setUpload (.accumulating 5 [1])))).map (fun t => t.upload) =
      some (.accumulating 2 []) := by decide

/-- TV-M3, its last call: the run is over. -/
theorem test_nonIncreasingOld_last_call :
    events ((inRun 0x40020300 1 2).setBind 0 7) = some [.write3D 0x300 2 0] ∧
    (next? (step ((inRun 0x40020300 1 2).setBind 0 7))).map (fun t => t.phase) = some .header := by decide

/-- TV-S6: the second bind of one slot, and its record. -/
theorem test_nonIncreasing_bind_conflict :
    (next? (step ((inRun 0x60020000 1 7).setBind 0 7))).map (fun t => (t.fault, t.bindAt 0)) =
      some (some ⟨.bindConflict, some 0x1000, some 0x60020000, some 0, some 0, some 7, some 1⟩, some 7) := by decide

/-- TV-M5: no argument word is read. -/
theorem test_increaseOnce_zero :
    (next? (step (atHeader [0x80000100, 1]))).map (fun t => (t.phase, t.cur, t.fault.map (fun r => r.code))) =
      some (.faulted, 0x1004, some .increaseOnceZero) := by decide

/-- TV-S3: the third call of IncreaseOnce still goes to `m + 1`. -/
theorem test_increaseOnce_third_call :
    events ((inRun 0x80032300 2 0xC).setBind 1 0x20) = some [.write2D 0x301 0xC] := by decide

/-- TV-M6: the argument count is ignored and one word is read. -/
theorem test_inline_ignores_argCount :
    events ((atHeader [0xA0170200, 1]).setBind 0 7) = some [.write3D 0x200 5 0] ∧
    (next? (step ((atHeader [0xA0170200, 1]).setBind 0 7))).map (fun t => (t.phase, t.cur)) = some (.header, 0x1004) := by
  decide

/-- Program 2, its last word: a macro of one word. -/
theorem test_inline_macro :
    events ((atHeader [0xA48C0046]).setUpload (.accumulating 0x11 [])) = some [.submitMacro 0x11 [0x123]] := by decide

/-- TV-M7. -/
theorem test_invalidMode6_faults :
    (next? (step (atHeader [0xC0000000]))).map (fun t => t.fault) =
      some (some ⟨.unknownMode, some 0x1000, some 0xC0000000, none, none, none, none⟩) := by decide

/-- TV-M8: no argument word is read. -/
theorem test_invalidMode7_faults :
    (next? (step (atHeader [0xE0030200, 1, 2, 3]))).map (fun t => (t.phase, t.cur)) = some (.faulted, 0x1004) := by decide

/-! ## Method calls, one `dispatch` each -/

/-- TV-D2: the same entry again clears the code. -/
theorem test_setGraphMacroEntry :
    (next? (dispatch 0x47 ⟨2, 5, 1⟩ (State.reset.setUpload (.accumulating 5 [0xA])))).map (fun t => t.upload) =
      some (.accumulating 5 []) := by decide

/-- TV-D3 and TV-D4. -/
theorem test_setGraphMacroCodeArg :
    (next? (dispatch 0x46 ⟨0, 0xB, 1⟩ (State.reset.setUpload (.accumulating 5 [0xA])))).map (fun t => (t.upload, t.trace)) =
      some (.accumulating 5 [0xA, 0xB], []) ∧
    (next? (dispatch 0x46 ⟨7, 0xB, 0⟩ (State.reset.setUpload (.accumulating 5 [0xA])))).map (fun t => (t.upload, t.trace)) =
      some (.idle, [.submitMacro 5 [0xA, 0xB]]) := by decide

/-- TV-D5. -/
theorem test_setGraphMacroCodeArg_without_entry :
    (next? (dispatch 0x46 ⟨0, 1, 0⟩ State.reset)).map (fun t => (t.upload, t.fault.map (fun r => r.code))) =
      some (.idle, some .macroNoEntry) := by decide

/-- TV-D8: an unknown class is stored. -/
theorem test_bindObject :
    (next? (dispatch 0x00 ⟨4, 0x999, 0⟩ State.reset)).map (fun t => (t.bindAt 4, t.bindAt 3, t.bindAt 5)) =
      some (some 0x999, none, none) := by decide

/-- TV-D7. -/
theorem test_bindObject_conflict :
    (next? (dispatch 0x00 ⟨0, 0x20, 0⟩ (State.reset.setBind 0 7))).map (fun t => (t.bindAt 0, t.fault.map (fun r => r.code))) =
      some (some 7, some .bindConflict) := by decide

/-- TV-D10. -/
theorem test_setGraphMacroCode :
    (next? (dispatch 0x45 ⟨0, 0x1234, 0⟩ State.reset)).map (fun t => (t.trace, t.upload)) =
      some ([.diag .unimplementedControl 0x45 0 0x1234], .idle) := by decide

/-- TV-D11 and TV-D12. -/
theorem test_otherControl :
    (next? (dispatch 0x01 ⟨3, 9, 0⟩ State.reset)).map (fun t => t.trace) = some [.diag .unimplementedControl 0x01 3 9] ∧
    (next? (dispatch 0xFF ⟨5, 0, 0⟩ State.reset)).map (fun t => t.trace) = some [.diag .unimplementedControl 0xFF 5 0] := by
  decide

/-- TV-D13, TV-D14 and TV-D15. -/
theorem test_engineForward :
    (next? (dispatch 0x200 ⟨1, 0xCAFE, 2⟩ (State.reset.setBind 1 7))).map (fun t => t.trace) =
      some [.write3D 0x200 0xCAFE 2] ∧
    (next? (dispatch 0x200 ⟨1, 0xCAFE, 2⟩ (State.reset.setBind 1 0x20))).map (fun t => t.trace) =
      some [.write2D 0x200 0xCAFE] ∧
    (next? (dispatch 0x200 ⟨1, 0xCAFE, 2⟩ (State.reset.setBind 1 0x30))).map (fun t => t.trace) =
      some [.writeCompute 0x200 0xCAFE] := by decide

/-- TV-D9 and TV-D16. -/
theorem test_engineForward_faults :
    (next? (dispatch 0x100 ⟨4, 1, 0⟩ (State.reset.setBind 4 0x999))).map (fun t => t.fault.map (fun r => r.code)) =
      some (some .unknownEngine) ∧
    (next? (dispatch 0x100 ⟨6, 0, 0⟩ State.reset)).map (fun t => t.fault.map (fun r => r.code)) =
      some (some .unboundSubchannel) := by decide

/-! ## The call, the port and reset -/

/-- TV-M11: a call of no words is translated, and its next step would end it. -/
theorem test_process_of_no_words :
    events { stream [] with requests := [.process 0x1000 0] } = some [.translate 0x1000 0x1000] ∧
    (next? (step { stream [] with requests := [.process 0x1000 0] })).map (fun t => (t.phase, t.cur, t.endAddr)) =
      some (.header, 0x1000, 0x1000) := by decide

/-- TV-F1: no translation, no read. -/
theorem test_translation_failure :
    events { State.reset with requests := [.process 0x1000 1] } =
      some [.fault .port ⟨.port, none, none, none, none, none, none⟩] := by decide

/-- TV-F2 and TV-F6: a misaligned header read; an argument read at 2^64. -/
theorem test_read_failures :
    events { atHeader [0x00010000] with cur := 0x1002, endAddr := 0x1006 } =
      some [.fault .port ⟨.port, none, none, none, none, none, none⟩] ∧
    (next? (step { inRun 0x00010000 0 7 with cur := 2 ^ 64, hdrAddr := 2 ^ 64 - 4 })).map (fun t => t.fault) =
      some (some ⟨.port, some (2 ^ 64 - 4), some 0x00010000, some 0, some 0, none, some 0⟩) := by decide

/-- A block whose port is given answer by answer, the answers at 0 and 2 such as no memory of bytes could give. -/
def tablePort : State :=
  { State.reset with cfg := { Config.t1 with port := .table }, answers := [(0, 0x00010000), (2, 0xC0000000)] }

/-- R44, R45: another port may take any address, and one address tells nothing of another; an address it has no answer for
fails. -/
theorem test_table_port :
    tablePort.memRead 0 = some 0x00010000 ∧ tablePort.memRead 2 = some 0xC0000000 ∧ tablePort.memRead 4 = none ∧
    (next? (step { tablePort with phase := .header, cur := 2, endAddr := 6 })).map (fun t => t.fault.map (fun r => r.code)) =
      some (some .unknownMode) ∧
    (next? (step (tablePort.withFetchWord 32 0xC0000000))).map (fun t => t.fault.map (fun r => r.hdrWord)) =
      some (some (some 0xC0000000)) := by decide

/-- TV-F5: reset of a faulted block with a binding and a macro. -/
theorem test_reset_of_a_faulted_block :
    (next? (step
      { ((State.reset.setBind 0 7).setUpload (.accumulating 5 [1])).raise (noRunRecord .port) with requests := [.reset] })).map
      (fun t => (t.bindAt 0, t.upload, t.phase, t.fault)) = some (none, .idle, .idle, none) := by decide

/-! ## Witnesses: states and operands that meet the hypotheses of the statements -/

theorem witness_HeaderDecodingInvertsEncoding :
    ((Instr.inlineHeader ⟨0x1FFF, 7, 3, 0x7FF⟩).wf .doc = true ∧ (Instr.inlineHeader ⟨0x1FFF, 7, 3, 0x7FF⟩).header? ≠ none) ∧
    ((Instr.increaseOnce ⟨0x1FFF, 7, 0x1FFF, 0x1FFF⟩).wf .upstream = true ∧
      (Instr.increaseOnce ⟨0x1FFF, 7, 0x1FFF, 0x1FFF⟩).header? ≠ none) := by decide

theorem witness_CallClassifyingInvertsEncoding :
    (Instr.otherControl 0xFF ⟨7, 1, 2⟩).wf .doc = true ∧ (Instr.otherControl 0xFF ⟨7, 1, 2⟩).call? = some (0xFF, ⟨7, 1, 2⟩) := by
  decide

/-- Every clause at both ends of its range. -/
theorem witness_MethodNumberSelectsTheBehaviour :
    (0x000 : Word).toNat = 0x000 ∧ (0x001 : Word).toNat = 0x001 ∧ (0x044 : Word).toNat = 0x044 ∧
    (0x045 : Word).toNat = 0x045 ∧ (0x046 : Word).toNat = 0x046 ∧ (0x047 : Word).toNat = 0x047 ∧
    (0x048 : Word).toNat = 0x048 ∧ (0x0FF : Word).toNat = 0x0FF ∧ 0x100 ≤ (0x100 : Word).toNat ∧
    0x100 ≤ (0xFFFFFFFF : Word).toNat := by decide

theorem witness_DecodingTakesFourBytes : ([0, 0, 1] : List Byte).length < 4 := by decide

/-- The largest numbers an `INC` line can have. -/
theorem witness_AssemblerWritesIncreasingPackets :
    assembleLine .doc (.inc 7 0x1FFF [1, 2, 3]) = .ok [0x2003FFFF, 1, 2, 3] := by decide

theorem witness_SetGraphMacroCodeArgAppendsOrFlushes :
    ((State.reset.setUpload (.accumulating 5 [0xA])).upload = .accumulating 5 [0xA] ∧
      (⟨0, 0xB, 1⟩ : CallArgs).remaining ≠ 0 ∧ (⟨7, 0xB, 0⟩ : CallArgs).remaining = 0) ∧
    State.reset.upload = .idle := by decide

theorem witness_BindObjectFillsAFreeSlotOnce :
    State.reset.bindAt 7 = none ∧ (State.reset.setBind 7 0).bindAt 7 ≠ none := by decide

theorem witness_UnimplementedControlMethodsOnlyDiagnose :
    [(0x01 : Word), 0x44, 0x48, 0xFF].all isOtherControl = true := by decide

theorem witness_EngineForwardGoesThroughTheBinding :
    State.reset.cfg.wf = true ∧ 0x100 ≤ (0x100 : Word).toNat ∧
    (State.reset.setBind 1 7).bindAt 1 = some classMaxwell3D ∧
    (State.reset.setBind 1 0x20).bindAt 1 = some State.reset.cfg.classFermiTwoD ∧
    (State.reset.setBind 1 0x30).bindAt 1 = some State.reset.cfg.classMaxwellCompute ∧
    ((State.reset.setBind 1 0x999).bindAt 1 = some 0x999 ∧ (0x999 : Word) ≠ classMaxwell3D ∧
      (0x999 : Word) ≠ State.reset.cfg.classFermiTwoD ∧ (0x999 : Word) ≠ State.reset.cfg.classMaxwellCompute) ∧
    State.reset.bindAt 1 = none := by decide

theorem witness_ControlMethodsIgnoreTheBindings :
    (0x01 : Word).toNat < 0x100 ∧ (0x01 : Word).toNat ≠ 0 ∧ (0xFF : Word).toNat < 0x100 ∧ (0xFF : Word).toNat ≠ 0 := by decide

/-- A call that faults and one that does not. -/
theorem witness_CallsAreAllOrNothing :
    ∃ t u, (Instr.bindObject ⟨0, 7, 0⟩).call? ≠ none ∧ State.reset.phase ≠ .faulted ∧
      exec (.bindObject ⟨0, 7, 0⟩) State.reset = .next t ∧ t.phase = .idle ∧
      (State.reset.setBind 0 7).phase ≠ .faulted ∧ exec (.bindObject ⟨0, 7, 0⟩) (State.reset.setBind 0 7) = .next u ∧
      u.phase = .faulted := ⟨_, _, by decide, by decide, rfl, rfl, by decide, rfl, rfl⟩

theorem witness_RunHeadersBeginTheirRun :
    (⟨0x200, 0, 1, 0⟩ : HeaderFields).argCount.toNat ≠ 0 ∧ (⟨0x200, 0, 0, 0⟩ : HeaderFields).argCount.toNat = 0 := by decide

theorem witness_IncreaseOnceNeedsAnArgument :
    (⟨0x100, 3, 1, 0⟩ : HeaderFields).argCount.toNat ≠ 0 ∧ (⟨0x100, 0, 0, 0⟩ : HeaderFields).argCount.toNat = 0 := by decide

theorem witness_InlineMakesItsOneCall :
    (0x100 ≤ (⟨0x100, 0, 0, 5⟩ : HeaderFields).method.toNat ∧ (State.reset.setBind 0 7).bindAt 0 = some classMaxwell3D) ∧
    ((⟨0, 2, 0, 7⟩ : HeaderFields).method.toNat = 0 ∧ State.reset.bindAt 2 = none) ∧
    (⟨0x47, 0, 0, 5⟩ : HeaderFields).method.toNat = 0x47 ∧
    ((⟨0x46, 0, 0, 5⟩ : HeaderFields).method.toNat = 0x46 ∧
      (State.reset.setUpload (.accumulating 5 [])).upload = .accumulating 5 []) ∧
    (⟨0x45, 0, 0, 5⟩ : HeaderFields).method.toNat = 0x45 := by decide

theorem witness_InvalidModesFault :
    let s := atHeader [0xC0000000]
    s.phase = .header ∧ s.cur < s.endAddr ∧ s.memRead s.cur = some 0xC0000000 ∧ 6 ≤ (0xC0000000 : Word).toNat / 2 ^ 29 := by
  decide

/-- The last call of the longest run, under both profiles. -/
theorem witness_MethodOfEachCallIsExact :
    ((⟨0x1FFF, 0, 3, 0⟩ : HeaderFields).wf .doc = true ∧ 2 < (⟨0x1FFF, 0, 3, 0⟩ : HeaderFields).argCount.toNat) ∧
    ((⟨0x1FFF, 0, 0x1FFF, 0x1FFF⟩ : HeaderFields).wf .upstream = true ∧
      0x1FFE < (⟨0x1FFF, 0, 0x1FFF, 0x1FFF⟩ : HeaderFields).argCount.toNat) := by decide

theorem witness_RemainingCountsTheCallsLeft :
    0 < argCountOf (decodeHeader .doc 0x20030200) ∧ 2 < argCountOf (decodeHeader .doc 0x20030200) := by decide

theorem witness_StepRunsTheHeaderAtTheCursor :
    let s := atHeader [0x20030200]
    (s.phase = .header ∧ s.cur < s.endAddr ∧ s.cur + 4 ≤ 2 ^ 64 ∧ s.cfg.port = .memory .little true ∧ s.cur % 4 = 0 ∧
      s.memRead s.cur = some 0x20030200) ∧
    s.mem.byteAt s.cur = some 0x00 ∧ s.mem.byteAt (s.cur + 1) = some 0x02 ∧ s.mem.byteAt (s.cur + 2) = some 0x03 ∧
    s.mem.byteAt (s.cur + 3) = some 0x20 ∧
    decode s.cfg.profile .little [0x00, 0x02, 0x03, 0x20] = .ok (.increasing ⟨0x200, 0, 3, 0⟩, []) := by decide

/-- What the hypotheses of `StepMakesTheNextCallOfTheRun` ask of a state, with what its three clauses tell apart. -/
def runsCall (s : State) (w : Word) (faults : Bool) (last : Bool) : Bool :=
  decide (s.phase = .args ∧ s.memRead s.cur = some w ∧ decide (s.argi + 1 = argCountOf s.hdr) = last) &&
  ((next? (exec
      (decodeCall (methodOf s.hdr s.argi) ⟨s.hdr.fields.subchannel, w, remainingOf (argCountOf s.hdr) s.argi⟩)
      { s with cur := s.cur + 4, trace := s.trace ++ [.read s.cur w] })).map fun t => decide (t.phase = .faulted)) ==
    some faults

theorem witness_StepMakesTheNextCallOfTheRun :
    runsCall ((inRun 0x60020000 1 7).setBind 0 7) 7 true true = true ∧
    runsCall ((inRun 0x40020300 1 2).setBind 0 7) 2 false true = true ∧
    runsCall ((inRun 0x00030200 1 2).setBind 0 7) 2 false false = true := by decide

/-- A call of words and a call of none. -/
theorem witness_ProcessEntersTheRegion :
    let s (k : Word) : State := { stream [] with requests := [.process 0x1000 k] }
    ∀ k, (s k).phase = .idle ∧ (s k).requests = .process 0x1000 k :: [] ∧ (s k).translate 0x1000 = some 0x1000 :=
  fun _ => ⟨rfl, rfl, rfl⟩

/-- At the end, and past it (R188). -/
theorem witness_CallEndsAtTheRegionsEnd :
    ∀ c ∈ [0x1004, 0x1008],
      ({ atHeader [0] with cur := c } : State).phase = .header ∧
      ({ atHeader [0] with cur := c } : State).endAddr ≤ ({ atHeader [0] with cur := c } : State).cur := by decide

theorem witness_PortFailuresFault :
    (({ State.reset with requests := [.process 0x1000 1] } : State).phase = .idle ∧
      ({ State.reset with requests := [.process 0x1000 1] } : State).requests = .process 0x1000 1 :: [] ∧
      ({ State.reset with requests := [.process 0x1000 1] } : State).translate 0x1000 = none) ∧
    (({ atHeader [0] with mem := [] } : State).phase = .header ∧
      ({ atHeader [0] with mem := [] } : State).cur < ({ atHeader [0] with mem := [] } : State).endAddr ∧
      ({ atHeader [0] with mem := [] } : State).memRead 0x1000 = none) ∧
    (({ inRun 0x00010000 0 7 with mem := [] } : State).phase = .args ∧
      ({ inRun 0x00010000 0 7 with mem := [] } : State).memRead 0x1004 = none) ∧
    2 ^ 64 < (2 ^ 64 - 3) + 4 := by decide

/-- A faulted block with each of the host's actions waiting, and with none. -/
def faultedWith (rs : List HostRequest) : State :=
  { ((State.reset.setBind 0 7).setUpload (.accumulating 5 [1])).raise (noRunRecord .port) with requests := rs }

theorem witness_FaultIsStickyUntilReset :
    (faultedWith []).phase = .faulted ∧ (faultedWith []).requests = [] ∧
    (faultedWith [.process 0x1000 1]).requests = .process 0x1000 1 :: [] ∧
    (∃ t, step (faultedWith [.setByte 0 none]) = .next t) ∧
    (faultedWith [.reset]).requests = .reset :: [] := ⟨rfl, rfl, rfl, ⟨_, rfl⟩, rfl⟩

theorem witness_ResetClearsTheBlock :
    (faultedWith [.reset]).phase = .faulted ∧ (faultedWith [.reset]).requests = .reset :: [] ∧
    ({ State.reset.setBind 0 7 with requests := [.reset] } : State).phase = .idle := by decide

/-- The last word of the address space; an unmapped last byte; a misaligned address. -/
theorem witness_DefaultPortReadsLittleEndian :
    let s : State := { State.reset with mem := Memory.setWord .little [] (2 ^ 64 - 4) 0x20030200 }
    s.cfg.port = Port.default ∧ (2 ^ 64 - 4) + 4 ≤ 2 ^ 64 ∧ (2 ^ 64 - 4) % 4 = 0 ∧
    s.mem.byteAt (2 ^ 64 - 4) = some 0x00 ∧ s.mem.byteAt (2 ^ 64 - 4 + 1) = some 0x02 ∧
    s.mem.byteAt (2 ^ 64 - 4 + 2) = some 0x03 ∧ s.mem.byteAt (2 ^ 64 - 4 + 3) = some 0x20 ∧
    (0x1001 % 4 ≠ 0 ∧ 0x1001 + 4 ≤ 2 ^ 64) ∧
    Memory.byteAt [(0x1000, 0), (0x1001, 0), (0x1002, 0)] (0x1000 + 3) = none := by decide

theorem witness_ByteWriteIsReadBack :
    Memory.wf [(0x1000, 1), (0x1004, 2)] ∧ 2 ^ 64 - 1 < 2 ^ 64 := by decide

theorem witness_HostChangesAByteBetweenCalls :
    Memory.wf (stream [5]).mem ∧
    ({ stream [5] with requests := [.setByte 0x1000 none] } : State).phase = .idle ∧
    ({ stream [5] with requests := [.setByte 0x1000 none] } : State).requests = .setByte 0x1000 none :: [] ∧
    (faultedWith [.setByte 0x1000 (some 1)]).phase = .faulted := by decide

/-- A translation withdrawn, and one made while faulted. -/
theorem witness_HostChangesATranslationBetweenCalls :
    keysWf (stream [5]).tmap ∧
    ({ stream [5] with requests := [.setTranslation 0x1000 none] } : State).phase = .idle ∧
    ({ stream [5] with requests := [.setTranslation 0x1000 none] } : State).requests = .setTranslation 0x1000 none :: [] ∧
    (faultedWith [.setTranslation 0xFFFFFFFFFFFFFFFF (some 0)]).phase = .faulted ∧
    keysWf (faultedWith [.setTranslation 0xFFFFFFFFFFFFFFFF (some 0)]).tmap := by decide

/-- An answer withdrawn, and the last one of the address space made while faulted. -/
theorem witness_HostChangesAnAnswerBetweenCalls :
    tablePort.cfg.port = .table ∧ keysWf tablePort.answers ∧
    ({ tablePort with requests := [.setAnswer 2 none] } : State).phase = .idle ∧
    ({ tablePort with requests := [.setAnswer 2 none] } : State).requests = .setAnswer 2 none :: [] ∧
    ({ tablePort.raise (noRunRecord .port) with requests := [.setAnswer 0xFFFFFFFFFFFFFFFC (some 0)] } : State).phase =
      .faulted ∧
    0xFFFFFFFFFFFFFFFC + 4 ≤ 2 ^ 64 := by decide

/-- The last address that `EveryPortIsATableOfAnswers` speaks of. -/
theorem witness_EveryPortIsATableOfAnswers : (0xFFFFFFFFFFFFFFFC : Addr).toNat + 4 ≤ 2 ^ 64 := by decide

/-- A state in a run, with code pending, that has the invariants, and its step: the hypotheses of
`StepKeepsTheMachineInvariant`, `NoCodeIsPendingInIdleOrAtAHeader`, `ActiveCallLeavesMemoryAlone`,
`CursorMovesOneWordPerRead`, `OneStepReadsOnceAndEmitsOneEngineEventAtMost` and `CallEndsExactlyWithDoneOrFault`. -/
theorem witness_of_the_invariants :
    ∃ t, let s := (inRun 0x60030046 1 2).setUpload (.accumulating 5 [1])
      s.Inv ∧ s.codeSettled ∧ s.upload.pending ≠ [] ∧ s.phase.active = true ∧ step s = .next t :=
  ⟨_, ⟨by decide, by decide, by decide, by decide, fun _ => by decide, by show (_ ↔ _); decide⟩, fun _ => .inl (by decide), by decide,
    by decide, rfl⟩

/-- Steps that end a call, for `CallEndsExactlyWithDoneOrFault`. -/
theorem witness_CallEndsExactlyWithDoneOrFault :
    events { atHeader [] with trace := [.done] } = some [.done] ∧
    (next? (step (atHeader [0xC0000000]))).map (fun t => t.phase) = some .faulted := by decide

theorem witness_ResetHasTheMachineInvariant : Config.t1.wf = true := by decide

/-- A binding through a step of a call, and through the host's reset. -/
theorem witness_BindingsPersistUntilReset :
    (∃ t, step ((inRun 0x00030200 1 2).setBind 0 7) = .next t ∧ ((inRun 0x00030200 1 2).setBind 0 7).bindAt 0 = some 7) ∧
    (∃ t, step (faultedWith [.reset]) = .next t ∧ (faultedWith [.reset]).bindAt 0 = some 7) :=
  ⟨⟨_, rfl, by decide⟩, ⟨_, rfl, by decide⟩⟩

theorem witness_StepsCompleteTheHeaderCycle :
    (atHeader [0x20030200, 1, 2, 3]).phase = .header ∧
    (atHeader [0x20030200, 1, 2, 3]).cur < (atHeader [0x20030200, 1, 2, 3]).endAddr := by decide

/-- For `StepsCompleteTheProcessCall` and `ProcessCallEndsInTime`. -/
theorem witness_StepsCompleteTheProcessCall :
    ({ stream [0x00010000, 7] with requests := [.process 0x1000 2, .reset] } : State).phase = .idle ∧
    ({ stream [0x00010000, 7] with requests := [.process 0x1000 2, .reset] } : State).requests =
      .process 0x1000 2 :: [.reset] := by decide

/-- TV-S1. -/
theorem witness_ThreeDPacketWritesEveryArgument :
    let s := (atHeader [0x20030200, 1, 2, 3]).setBind 0 7
    let h := decodeHeader s.cfg.profile 0x20030200
    let vs : List Word := [1, 2, 3]
    s.phase = .header ∧ s.cur < s.endAddr ∧ s.memRead s.cur = some 0x20030200 ∧ modeHasRun h.mode = true ∧
    vs.length = argCountOf h ∧ vs ≠ [] ∧ (∀ i, (hi : i < vs.length) → s.memRead (s.cur + 4 + 4 * i) = some vs[i]) ∧
    s.bindAt h.fields.subchannel = some classMaxwell3D ∧ (∀ i, i < vs.length → 0x100 ≤ methodNat h i) := by decide

/-- TV-S5, its code packet. -/
theorem witness_MacroPacketSubmitsItsWordsOnce :
    let s := (atHeader [0x60030046, 0xAAA1, 0xAAA2, 0xAAA3]).setUpload (.accumulating 0x10 [])
    let h := decodeHeader s.cfg.profile 0x60030046
    let vs : List Word := [0xAAA1, 0xAAA2, 0xAAA3]
    s.phase = .header ∧ s.cur < s.endAddr ∧ s.memRead s.cur = some 0x60030046 ∧
    (h.mode = .nonIncreasing ∨ h.mode = .nonIncreasingOld) ∧ h.fields.method = 0x46 ∧
    vs.length = argCountOf h ∧ vs ≠ [] ∧ (∀ i, (hi : i < vs.length) → s.memRead (s.cur + 4 + 4 * i) = some vs[i]) ∧
    s.upload = .accumulating 0x10 [] := by decide

end Sys2Proof.Tests
end

/-! ## What a step can do, and the invariant of the machine (00_scope.md; 42_command_list_processor.md R134) -/

section
namespace Sys2Proof.Machine

open Sys2Proof

/-! ### What the instructions and the host's actions can do -/

/-- A call of the dispatcher raises a fault alone, or touches the binding table, the upload and the trace alone (R104). -/
theorem dispatch_next_cases {m : Word} {a : CallArgs} {s t : State} (h : dispatch m a s = .next t) :
    (∃ r, t = s.raise r) ∨ t = { s with bind := t.bind, upload := t.upload, trace := t.trace } := by
  obtain ⟨e, -, -, he⟩ | ⟨e, c, -, -, -, he⟩ | ⟨e, c, -, -, -, he⟩ | ⟨-, -, he⟩ | ⟨-, he⟩ | ⟨cls, e, -, -, -, he⟩ |
    ⟨r, he, -⟩ := dispatch_cases m a s <;> cases he.symm.trans h
  · exact .inr rfl
  · exact .inr rfl
  · exact .inr rfl
  · exact .inr rfl
  · exact .inr rfl
  · exact .inr rfl
  · exact .inl ⟨r, rfl⟩

/-- What the meaning of a header is, by its mode: the beginning of its run, a contract violation, the one call of an
immediate, or an unknown mode (R122 to R128). -/
theorem exec_toInstr_cases (h : Header) (s : State) :
    (modeHasRun h.mode = true ∧ (h.mode = .increaseOnce → argCountOf h ≠ 0) ∧
      exec h.toInstr s = .next (s.startRun h)) ∨
    (h.mode = .increaseOnce ∧ argCountOf h = 0 ∧
      exec h.toInstr s = .next (s.raise (s.headerRecord .increaseOnceZero))) ∨
    (h.mode = .inlineMode ∧
      exec h.toInstr s =
        dispatch (methodOf h 0) { subchannel := h.fields.subchannel, value := inlineValue h.fields, remaining := 0 }
          { s with hdr := h, argi := 0 }) ∨
    ((h.mode = .invalid6 ∨ h.mode = .invalid7) ∧
      exec h.toInstr s = .next (s.raise (s.headerRecord .unknownMode))) := by
  obtain ⟨f, mode⟩ := h
  cases mode with
  | increasingOld => exact .inl ⟨rfl, nofun, rfl⟩
  | increasing => exact .inl ⟨rfl, nofun, rfl⟩
  | nonIncreasingOld => exact .inl ⟨rfl, nofun, rfl⟩
  | nonIncreasing => exact .inl ⟨rfl, nofun, rfl⟩
  | increaseOnce =>
    by_cases hn : f.argCount.toNat = 0
    · exact .inr (.inl ⟨rfl, hn, if_pos hn⟩)
    · exact .inl ⟨rfl, fun _ => hn, if_neg hn⟩
  | inlineMode => exact .inr (.inr (.inl ⟨rfl, rfl⟩))
  | invalid6 => exact .inr (.inr (.inr ⟨.inl rfl, rfl⟩))
  | invalid7 => exact .inr (.inr (.inr ⟨.inr rfl, rfl⟩))

/-- A step of an Idle block takes the host's next action; with none waiting nothing happens (R173). -/
theorem stepIdle_next_cases {s t : State} (h : stepIdle s = .next t) :
    (s.requests = [] ∧ t = s) ∨
    ∃ r rest, s.requests = r :: rest ∧ t = ({ s with requests := rest } : State).takeRequest r := by
  unfold stepIdle at h
  split at h
  case h_1 hr => cases h; exact .inl ⟨hr, rfl⟩
  case h_2 r rest hr => cases h; exact .inr ⟨r, rest, hr, rfl⟩

/-- A step of a Faulted block takes a host action that is no `process` (R162, R172). -/
theorem stepFaulted_next_cases {s t : State} (h : stepFaulted s = .next t) :
    ∃ r rest, s.requests = r :: rest ∧ (∀ base count, r ≠ .process base count) ∧
      t = ({ s with requests := rest } : State).takeRequest r := by
  unfold stepFaulted at h
  split at h <;> cases h
  all_goals exact ⟨_, _, ‹_›, by simp, rfl⟩

/-! ### The operations keep the invariant -/

/-- Outside `Faulted` no record is held (R29). -/
theorem State.Inv.fault_eq_none {s : State} (hs : s.Inv) (hp : s.phase ≠ .faulted) : s.fault = none := by
  simpa using mt hs.fault_wf.2 hp

/-- The port's data and the parameters alone carry the invariant to a state outside `Args` and `Faulted`. -/
theorem State.Inv.of_no_run_no_fault {s t : State} (hs : s.Inv)
    (hport : t.cfg = s.cfg ∧ t.mem = s.mem ∧ t.tmap = s.tmap ∧ t.answers = s.answers)
    (hrun : t.phase ≠ .args) (hphase : t.phase ≠ .faulted) (hfault : t.fault = none) : t.Inv := by
  obtain ⟨hcfg, hmem, htmap, hans⟩ := hport
  exact
    { mem_wf := hmem ▸ hs.mem_wf
      tmap_wf := htmap ▸ hs.tmap_wf
      answers_wf := hans ▸ hs.answers_wf
      cfg_wf := hcfg ▸ hs.cfg_wf
      run_wf := fun h => absurd h hrun
      fault_wf := by simp [State.faultWf, hphase, hfault] }

theorem State.Inv.raise {s : State} (hs : s.Inv) (r : FaultRecord) : (s.raise r).Inv :=
  { hs with
    run_wf := nofun
    fault_wf := by simp [State.faultWf] }

/-- A word read at the cursor moves what no invariant speaks of. -/
theorem State.Inv.read {s : State} (hs : s.Inv) (cur : Nat) (trace : List Event) :
    ({ s with cur := cur, trace := trace } : State).Inv :=
  { hs with }

theorem State.Inv.endCall {s : State} (hs : s.Inv) (hp : s.phase ≠ .faulted) : s.endCall.Inv :=
  hs.of_no_run_no_fault ⟨rfl, rfl, rfl, rfl⟩ nofun nofun (hs.fault_eq_none hp)

/-- The run of a header is well formed when the header is the decoding of the word kept (R28, R121). -/
theorem State.Inv.startRun {s : State} (hs : s.Inv) (hp : s.phase ≠ .faulted) {h : Header}
    (hword : h = decodeHeader s.cfg.profile s.hdrWord) (hmode : modeHasRun h.mode = true) : (s.startRun h).Inv := by
  obtain ⟨-, heq⟩ | ⟨hn, heq⟩ := startRun_cases s h <;> rw [heq]
  · exact hs
  · exact
      { hs with
        run_wf := fun _ => ⟨hword, hmode, Nat.pos_of_ne_zero hn⟩
        fault_wf := by simp [State.faultWf, hs.fault_eq_none hp] }

/-- After a call the run goes on below its count, or is over (R134). -/
theorem State.Inv.advanceRun {s : State} (hs : s.Inv) : s.advanceRun.Inv := by
  obtain ⟨hp, -, heq⟩ | ⟨hp, hne, heq⟩ | ⟨-, heq⟩ := advanceRun_cases s <;> rw [heq]
  · exact hs.of_no_run_no_fault ⟨rfl, rfl, rfl, rfl⟩ nofun nofun (hs.fault_eq_none (by simp [hp]))
  · obtain ⟨hword, hmode, hlt⟩ := hs.run_wf hp
    exact { hs with run_wf := fun _ => ⟨hword, hmode, Nat.lt_of_le_of_ne hlt hne⟩ }
  · exact hs

theorem dispatch_keeps_inv {m : Word} {a : CallArgs} {s t : State} (hs : s.Inv) (h : dispatch m a s = .next t) :
    t.Inv := by
  obtain ⟨r, rfl⟩ | heq := dispatch_next_cases h
  · exact hs.raise r
  · rw [heq]
    exact { hs with }

/-- A header that was read at a header position keeps the invariant, whatever its mode (R121 to R128). -/
theorem exec_decodeWord_keeps_inv {s t : State} (hs : s.Inv) (hp : s.phase = .header)
    (h : exec (decodeWord s.cfg.profile s.hdrWord) s = .next t) : t.Inv := by
  have hrun : s.phase ≠ .args := by simp [hp]
  have hfault : s.phase ≠ .faulted := by simp [hp]
  obtain ⟨hmode, -, he⟩ | ⟨-, -, he⟩ | ⟨-, he⟩ | ⟨-, he⟩ :=
    exec_toInstr_cases (decodeHeader s.cfg.profile s.hdrWord) s <;> have ht := he.symm.trans h
  · cases ht
    exact hs.startRun hfault rfl hmode
  · cases ht
    exact hs.raise _
  · have hinline : ({ s with hdr := decodeHeader s.cfg.profile s.hdrWord, argi := 0 } : State).Inv :=
      hs.of_no_run_no_fault ⟨rfl, rfl, rfl, rfl⟩ hrun hfault (hs.fault_eq_none hfault)
    exact dispatch_keeps_inv hinline ht
  · cases ht
    exact hs.raise _

theorem State.Inv.startCall {s : State} (hs : s.Inv) (hp : s.phase ≠ .faulted) (base : Addr) (count : Word) :
    (s.startCall base count).Inv := by
  obtain ⟨lin, -, heq⟩ | ⟨-, heq⟩ := startCall_cases s base count <;> rw [heq]
  · exact hs.of_no_run_no_fault ⟨rfl, rfl, rfl, rfl⟩ nofun nofun (hs.fault_eq_none hp)
  · exact hs.raise _

/-- A host action keeps the invariant; `process` is for a block that is not Faulted (R172). -/
theorem State.Inv.takeRequest {s : State} (hs : s.Inv) {r : HostRequest}
    (hr : s.phase = .faulted → ∀ base count, r ≠ .process base count) : (s.takeRequest r).Inv := by
  cases r with
  | process base count => exact hs.startCall (fun hp => hr hp base count rfl) base count
  | reset => exact hs.of_no_run_no_fault ⟨rfl, rfl, rfl, rfl⟩ nofun nofun rfl
  | setByte a b => exact { hs with mem_wf := Memory.wf_setByte hs.mem_wf a.isLt b }
  | setTranslation va lin => exact { hs with tmap_wf := keysWf_setKey hs.tmap_wf va.isLt lin }
  | setAnswer a w => exact { hs with answers_wf := keysWf_setKey hs.answers_wf a.isLt w }

/-! ### A step of each phase keeps the invariant -/

theorem stepIdle_keeps_inv {s t : State} (hs : s.Inv) (hp : s.phase = .idle) (h : stepIdle s = .next t) : t.Inv := by
  obtain ⟨-, rfl⟩ | ⟨r, rest, -, rfl⟩ := stepIdle_next_cases h
  · exact hs
  · have hrest : ({ s with requests := rest } : State).Inv := { hs with }
    exact hrest.takeRequest fun hf => absurd (hp.symm.trans hf) nofun

theorem stepFaulted_keeps_inv {s t : State} (hs : s.Inv) (h : stepFaulted s = .next t) : t.Inv := by
  obtain ⟨r, rest, -, hr, rfl⟩ := stepFaulted_next_cases h
  have hrest : ({ s with requests := rest } : State).Inv := { hs with }
  exact hrest.takeRequest fun _ => hr

theorem stepHeader_keeps_inv {s t : State} (hs : s.Inv) (hp : s.phase = .header) (h : stepHeader s = .next t) :
    t.Inv := by
  have hfault : s.phase ≠ .faulted := by simp [hp]
  by_cases hc : s.cur < s.endAddr
  · obtain ⟨w, -, he⟩ | ⟨-, he⟩ := stepHeader_of_lt hc <;> rw [he] at h
    · have hread : ({ s with
          cur := s.cur + 4, trace := s.trace ++ [.read s.cur w], hdrAddr := s.cur, hdrWord := w } : State).Inv :=
        hs.of_no_run_no_fault ⟨rfl, rfl, rfl, rfl⟩ (by simp [hp]) hfault (hs.fault_eq_none hfault)
      exact exec_decodeWord_keeps_inv hread hp h
    · cases h
      exact hs.raise _
  · rw [stepHeader, if_neg hc] at h
    cases h
    exact hs.endCall hfault

theorem afterCall_dispatch_keeps_inv {m : Word} {a : CallArgs} {s t : State} (hs : s.Inv)
    (h : afterCall (dispatch m a s) = .next t) : t.Inv := by
  cases hd : dispatch m a s with
  | next u =>
    rw [hd] at h
    cases h
    exact (dispatch_keeps_inv hs hd).advanceRun
  | fault r => rw [hd] at h; cases h
  | refused r => rw [hd] at h; cases h

theorem stepArgs_keeps_inv {s t : State} (hs : s.Inv) (h : stepArgs s = .next t) : t.Inv := by
  obtain ⟨w, -, he⟩ | ⟨-, he⟩ := stepArgs_cases s <;> rw [he] at h
  · rw [← dispatch_eq_exec] at h
    exact afterCall_dispatch_keeps_inv (hs.read _ _) h
  · cases h
    exact hs.raise _

/-- Settles O38: by the phase of the state that steps. -/
theorem stepKeepsTheMachineInvariant : Obligations.StepKeepsTheMachineInvariant := by
  intro s t hs h
  cases hp : s.phase with
  | idle => exact stepIdle_keeps_inv hs hp (step_of_idle hp ▸ h)
  | header => exact stepHeader_keeps_inv hs hp (step_of_header hp ▸ h)
  | args => exact stepArgs_keeps_inv hs (step_of_args hp ▸ h)
  | faulted => exact stepFaulted_keeps_inv hs (step_of_faulted hp ▸ h)

/-! ### Every port -/

/-- Every function of addresses is what some canonical sparse map answers. -/
theorem exists_keysWf_lookupKey_eq {α : Type} (f : Addr → Option α) :
    ∃ l : List (Nat × α), keysWf l ∧ ∀ a : Addr, lookupKey a.toNat l = f a := by
  obtain ⟨l, hrise, hbound, hl⟩ := exists_lookupKey_eq (fun k => f (BitVec.ofNat 64 k)) addrLimit
  refine ⟨l, ⟨hrise, hbound⟩, fun a => ?_⟩
  have ha : a.toNat < addrLimit := a.isLt
  rw [hl, if_pos ha, BitVec.ofNat_toNat, BitVec.setWidth_eq]

/-- Settles O51: one sparse map for `translate`, one for `read32`. -/
theorem everyPortIsATableOfAnswers : Obligations.EveryPortIsATableOfAnswers := by
  intro translate read32
  obtain ⟨m, hm, htranslate⟩ := exists_keysWf_lookupKey_eq translate
  obtain ⟨ans, hans, hread⟩ := exists_keysWf_lookupKey_eq read32
  refine ⟨m, ans, hm, hans, fun s t ht => ?_⟩
  subst ht
  exact ⟨htranslate, fun a ha => (memRead_table rfl ha).trans (hread a)⟩

/-! ### Reset -/

/-- Settles O39: nothing is listed, no run is in progress and no record is held. -/
theorem resetHasTheMachineInvariant : Obligations.ResetHasTheMachineInvariant := by
  intro c hc
  exact
    { mem_wf := ⟨.nil, nofun⟩
      tmap_wf := ⟨.nil, nofun⟩
      answers_wf := ⟨.nil, nofun⟩
      cfg_wf := hc
      run_wf := nofun
      fault_wf := by simp [State.faultWf, State.resetWith] }

end Sys2Proof.Machine
end

/-! ## The binding table and the cursor through a step (10_state.md R22, R25; 20_memory.md R41, R47) -/

section
namespace Sys2Proof.Machine

open Sys2Proof

/-! ### When a call is active -/

theorem Phase.active_eq_true {p : Phase} : p.active = true ↔ p = .header ∨ p = .args := by
  cases p <;> simp [Phase.active]

theorem Phase.active_eq_false {p : Phase} : p.active = false ↔ p = .idle ∨ p = .faulted := by
  cases p <;> simp [Phase.active]

/-! ### What everything but a read keeps -/

/-- From `s` to `t` no word was read: `CUR` and `END` stay, the trace grows by events that are no READ, and no bound slot
was freed or bound anew (R22, R25). -/
structure State.NoReadFrame (s t : State) : Prop where
  bindAt : ∀ {sc : SubCh} {c : Word}, s.bindAt sc = some c → t.bindAt sc = some c
  cur : t.cur = s.cur
  endAddr : t.endAddr = s.endAddr
  trace : ∃ es, t.trace = s.trace ++ es ∧ readAddrs es = []

@[simp] theorem readAddrs_append (es fs : List Event) : readAddrs (es ++ fs) = readAddrs es ++ readAddrs fs :=
  List.filterMap_append

@[simp] theorem readAddrs_read_cons (a : Nat) (w : Word) (es : List Event) :
    readAddrs (.read a w :: es) = a :: readAddrs es := rfl

/-- The dispatcher reads nothing: it has no access to the port (R90). -/
theorem readAddrs_eq_nil_of_ofDispatch {e : Event} (h : e.ofDispatch = true) : readAddrs [e] = [] := by
  cases e with
  | read a w => exact absurd h nofun
  | write2D | write3D | writeCompute | submitMacro | diag | translate | done | fault => rfl

namespace State.NoReadFrame

/-- A change of other fields alone is within the frame. -/
theorem of_eq {s t : State} (hb : t.bind = s.bind) (hc : t.cur = s.cur) (he : t.endAddr = s.endAddr)
    (ht : t.trace = s.trace) : s.NoReadFrame t where
  bindAt h := (bindAt_congr hb _).trans h
  cur := hc
  endAddr := he
  trace := ⟨[], by simp [ht], rfl⟩

theorem trans {s t u : State} (h : s.NoReadFrame t) (k : t.NoReadFrame u) : s.NoReadFrame u where
  bindAt hb := k.bindAt (h.bindAt hb)
  cur := k.cur.trans h.cur
  endAddr := k.endAddr.trans h.endAddr
  trace := by
    obtain ⟨es, hes, hres⟩ := h.trace
    obtain ⟨fs, hfs, hrfs⟩ := k.trace
    exact ⟨es ++ fs, by rw [hfs, hes, List.append_assoc], by simp [hres, hrfs]⟩

theorem raise (s : State) (r : FaultRecord) : s.NoReadFrame (s.raise r) :=
  ⟨id, rfl, rfl, _, rfl, rfl⟩

theorem endCall (s : State) : s.NoReadFrame s.endCall :=
  ⟨id, rfl, rfl, _, rfl, rfl⟩

theorem emit (s : State) {e : Event} (he : e.ofDispatch = true) : s.NoReadFrame (s.emit e) :=
  ⟨id, rfl, rfl, _, rfl, readAddrs_eq_nil_of_ofDispatch he⟩

theorem setUpload (s : State) (m : MacroUpload) : s.NoReadFrame (s.setUpload m) :=
  of_eq rfl rfl rfl rfl

theorem flush (s : State) (e : Word) (c : List Word) : s.NoReadFrame (s.flush e c) :=
  (emit s rfl).trans (setUpload _ _)

/-- A slot that was free is another slot than any bound one. -/
theorem setBind {s : State} {sc : SubCh} (hfree : s.bindAt sc = none) (v : Word) : s.NoReadFrame (s.setBind sc v) where
  bindAt {a c} h := by
    have hne : a ≠ sc := by rintro rfl; simp [hfree] at h
    rw [bindAt_setBind, if_neg hne, h]
  cur := rfl
  endAddr := rfl
  trace := ⟨[], by simp, rfl⟩

theorem startRun (s : State) (h : Header) : s.NoReadFrame (s.startRun h) := by
  obtain ⟨-, heq⟩ | ⟨-, heq⟩ := startRun_cases s h <;> rw [heq] <;> exact of_eq rfl rfl rfl rfl

theorem advanceRun (s : State) : s.NoReadFrame s.advanceRun := by
  obtain ⟨-, -, heq⟩ | ⟨-, -, heq⟩ | ⟨-, heq⟩ := advanceRun_cases s <;> rw [heq] <;> exact of_eq rfl rfl rfl rfl

/-- A call of the dispatcher reads no word, and the one slot it may bind was free (R90, R95). -/
theorem dispatch {m : Word} {a : CallArgs} {s t : State} (h : dispatch m a s = .next t) : s.NoReadFrame t := by
  obtain ⟨e, -, -, he⟩ | ⟨e, c, -, -, -, he⟩ | ⟨e, c, -, -, -, he⟩ | ⟨-, hfree, he⟩ | ⟨-, he⟩ |
    ⟨cls, e, -, -, hfwd, he⟩ | ⟨r, he, -⟩ := dispatch_cases m a s <;> cases he.symm.trans h
  · exact setUpload s _
  · exact flush s _ _
  · exact setUpload s _
  · exact setBind hfree _
  · exact emit s rfl
  · exact emit s (ofDispatch_of_forwardEvent hfwd)
  · exact raise s r

/-- A header's meaning reads no word: its argument words are read by the steps after it (R134). -/
theorem exec_toInstr {h : Header} {s t : State} (hexec : exec h.toInstr s = .next t) : s.NoReadFrame t := by
  obtain ⟨-, -, he⟩ | ⟨-, -, he⟩ | ⟨-, he⟩ | ⟨-, he⟩ := exec_toInstr_cases h s <;> have ht := he.symm.trans hexec
  · cases ht
    exact startRun s h
  · cases ht
    exact raise s _
  · have hinline : s.NoReadFrame { s with hdr := h, argi := 0 } := of_eq rfl rfl rfl rfl
    exact hinline.trans (dispatch ht)
  · cases ht
    exact raise s _

theorem afterCall_dispatch {m : Word} {a : CallArgs} {s t : State}
    (h : afterCall (Machine.dispatch m a s) = .next t) : s.NoReadFrame t := by
  cases hd : Machine.dispatch m a s with
  | next u =>
    rw [hd] at h
    cases h
    exact (dispatch hd).trans (advanceRun u)
  | fault r => rw [hd] at h; cases h
  | refused r => rw [hd] at h; cases h

end State.NoReadFrame

/-! ### A step of an active call: at most one read, and the frame -/

theorem stepHeader_reads_at_most_once {s t : State} (h : stepHeader s = .next t) :
    s.NoReadFrame t ∨ ∃ w u, s.readAtCursor = some (w, u) ∧ u.NoReadFrame t := by
  by_cases hc : s.cur < s.endAddr
  · obtain ⟨w, hw, he⟩ | ⟨-, he⟩ := stepHeader_of_lt hc <;> rw [he] at h
    · have hkept : State.NoReadFrame { s with cur := s.cur + 4, trace := s.trace ++ [.read s.cur w] }
          { s with cur := s.cur + 4, trace := s.trace ++ [.read s.cur w], hdrAddr := s.cur, hdrWord := w } :=
        .of_eq rfl rfl rfl rfl
      exact .inr ⟨w, _, readAtCursor_eq_some.2 ⟨hw, rfl⟩, hkept.trans (.exec_toInstr h)⟩
    · cases h
      exact .inl (.raise s _)
  · rw [stepHeader, if_neg hc] at h
    cases h
    exact .inl (.endCall s)

theorem stepArgs_reads_at_most_once {s t : State} (h : stepArgs s = .next t) :
    s.NoReadFrame t ∨ ∃ w u, s.readAtCursor = some (w, u) ∧ u.NoReadFrame t := by
  obtain ⟨w, hw, he⟩ | ⟨-, he⟩ := stepArgs_cases s <;> rw [he] at h
  · rw [← dispatch_eq_exec] at h
    exact .inr ⟨w, _, readAtCursor_eq_some.2 ⟨hw, rfl⟩, .afterCall_dispatch h⟩
  · cases h
    exact .inl (.raise s _)

/-- What a step of an active call can do to the stream and the slots: nothing is read, or the one word at the cursor is
read first (R134). -/
theorem step_reads_at_most_once {s t : State} (hp : s.phase.active = true) (h : step s = .next t) :
    s.NoReadFrame t ∨ ∃ w u, s.readAtCursor = some (w, u) ∧ u.NoReadFrame t := by
  obtain hheader | hargs := Phase.active_eq_true.1 hp
  · exact stepHeader_reads_at_most_once (step_of_header hheader ▸ h)
  · exact stepArgs_reads_at_most_once (step_of_args hargs ▸ h)

/-! ### The cursor -/

/-- Settles O42: a read moves the cursor and leaves the READ, and the rest of the step does neither. -/
theorem cursorMovesOneWordPerRead : Obligations.CursorMovesOneWordPerRead := by
  intro s t hp h
  obtain hframe | ⟨w, u, hread, hframe⟩ := step_reads_at_most_once hp h
  · obtain ⟨es, htrace, hes⟩ := hframe.trace
    exact ⟨hframe.endAddr, es, htrace, .inl ⟨hframe.cur, hes⟩⟩
  · obtain ⟨-, rfl⟩ := readAtCursor_eq_some.1 hread
    obtain ⟨es, htrace, hes⟩ := hframe.trace
    exact ⟨hframe.endAddr, .read s.cur w :: es, by simp [htrace], .inr ⟨hframe.cur, by simp [hes]⟩⟩

/-! ### The binding table -/

theorem bindAt_of_readAtCursor {s u : State} {w : Word} (h : s.readAtCursor = some (w, u)) (sc : SubCh) :
    u.bindAt sc = s.bindAt sc := by
  obtain ⟨-, rfl⟩ := readAtCursor_eq_some.1 h
  rfl

theorem bindAt_step_of_active {s t : State} {sc : SubCh} {c : Word} (hp : s.phase.active = true)
    (h : step s = .next t) (hb : s.bindAt sc = some c) : t.bindAt sc = some c := by
  obtain hframe | ⟨w, u, hread, hframe⟩ := step_reads_at_most_once hp h
  · exact hframe.bindAt hb
  · exact hframe.bindAt ((bindAt_of_readAtCursor hread sc).trans hb)

/-- Among the host's actions only reset touches the binding table (R22, R180). -/
theorem bindAt_takeRequest {s : State} {r : HostRequest} (hr : r ≠ .reset) (sc : SubCh) :
    (s.takeRequest r).bindAt sc = s.bindAt sc := by
  cases r with
  | process base count =>
    obtain ⟨lin, -, heq⟩ | ⟨-, heq⟩ := startCall_cases s base count <;> rw [State.takeRequest, heq] <;> rfl
  | reset => exact absurd rfl hr
  | setByte | setTranslation | setAnswer => rfl

/-- Outside a call a step does nothing or takes the host's next action (R172, R173). -/
theorem step_cases_of_not_active {s t : State} (hp : s.phase.active = false) (h : step s = .next t) :
    t = s ∨ ∃ r rest, s.requests = r :: rest ∧ t = ({ s with requests := rest } : State).takeRequest r := by
  obtain hidle | hfaulted := Phase.active_eq_false.1 hp
  · obtain ⟨-, heq⟩ | htake := stepIdle_next_cases (step_of_idle hidle ▸ h)
    · exact .inl heq
    · exact .inr htake
  · obtain ⟨r, rest, hreq, -, heq⟩ := stepFaulted_next_cases (step_of_faulted hfaulted ▸ h)
    exact .inr ⟨r, rest, hreq, heq⟩

/-- Settles O41: in a call only a free slot is ever bound; outside one, only the host's reset touches the table. -/
theorem bindingsPersistUntilReset : Obligations.BindingsPersistUntilReset := by
  intro s t sc c h hb
  cases hp : s.phase.active with
  | true => exact .inl (bindAt_step_of_active hp h hb)
  | false =>
    obtain rfl | ⟨r, rest, hreq, rfl⟩ := step_cases_of_not_active hp h
    · exact .inl hb
    · by_cases hr : r = .reset
      · exact .inr ⟨rfl, rest, hr ▸ hreq⟩
      · exact .inl ((bindAt_takeRequest hr sc).trans hb)

/-! ### The values after reset -/

/-- Settles O33: the binding table by the lemma about every slot, the other three as `State.resetWith` gives them. -/
theorem stateAfterReset : Obligations.StateAfterReset := by
  intro c
  exact ⟨bindAt_resetWith c, rfl, rfl, rfl⟩

end Sys2Proof.Machine
end

/-! ## The port's reads, the host's changes between calls, and the frame of an active call (20_memory.md R41 to R46, R53,
R54) -/

section
namespace Sys2Proof.Machine

open Sys2Proof

/-! ### Reads of a memory-backed port -/

theorem memoryRead_eq_none_of_misaligned {a : Nat} (ha : a % 4 ≠ 0) (o : ByteOrder) (m : Memory) :
    memoryRead o true m a = none := by
  unfold memoryRead
  rw [if_pos (by simp [ha])]

theorem memoryRead_eq_none_of_unmapped {m : Memory} {a k : Nat} (hk : k < 4) (hnone : m.byteAt (a + k) = none)
    (o : ByteOrder) (al : Bool) : memoryRead o al m a = none := by
  unfold memoryRead
  split
  · rfl
  · split
    next h0 h1 h2 h3 =>
      interval_cases k <;> simp_all
    next => rfl

theorem memoryRead_of_mapped {m : Memory} {a : Nat} (ha : a % 4 = 0) {b0 b1 b2 b3 : Byte}
    (h0 : m.byteAt a = some b0) (h1 : m.byteAt (a + 1) = some b1) (h2 : m.byteAt (a + 2) = some b2)
    (h3 : m.byteAt (a + 3) = some b3) (o : ByteOrder) (al : Bool) :
    memoryRead o al m a = some (wordOfBytes o b0 b1 b2 b3) := by
  unfold memoryRead
  rw [if_neg (by simp [ha]), h0, h1, h2, h3]

/-- The value of an append is the sum of its parts, each in its place. -/
theorem toNat_append_eq_add {m n : Nat} (x : BitVec m) (y : BitVec n) :
    (x ++ y).toNat = x.toNat * 2 ^ n + y.toNat := by
  rw [BitVec.toNat_append, ← Nat.shiftLeft_add_eq_or_of_lt y.isLt, Nat.shiftLeft_eq]

/-- A little-endian word as the sum of its bytes (R43). -/
theorem toNat_wordOfBytes_little (b0 b1 b2 b3 : Byte) :
    (wordOfBytes .little b0 b1 b2 b3).toNat =
      b0.toNat + b1.toNat * 2 ^ 8 + b2.toNat * 2 ^ 16 + b3.toNat * 2 ^ 24 := by
  simp only [wordOfBytes, toNat_append_eq_add]
  omega

/-- Settles O34: a read of the default port is `memoryRead` of its bytes, aligned and little-endian. -/
theorem defaultPortReadsLittleEndian : Obligations.DefaultPortReadsLittleEndian := by
  intro s a hport ha
  rw [memRead_memory hport ha]
  refine ⟨fun hmis => memoryRead_eq_none_of_misaligned hmis _ _,
    fun k hk hnone => memoryRead_eq_none_of_unmapped hk hnone _ _, fun b0 b1 b2 b3 hal h0 h1 h2 h3 => ?_⟩
  exact ⟨_, memoryRead_of_mapped hal h0 h1 h2 h3 _ _, toNat_wordOfBytes_little b0 b1 b2 b3⟩

/-! ### The bytes of a stream -/

/-- The bytes of a word at the front are decoded as the word, and the others are left (R43, R64). -/
theorem decode_bytesOfWord_append (p : HdrProfile) (o : ByteOrder) (w : Word) (bs : List Byte) :
    decode p o (bytesOfWord o w ++ bs) = .ok (decodeWord p w, bs) := by
  simp only [bytesOfWord, List.cons_append, List.nil_append, decode, wordOfBytes_byteOfWord]

theorem decode_of_length_lt_four (p : HdrProfile) (o : ByteOrder) {bs : List Byte} (h : bs.length < 4) :
    decode p o bs = .error .fewerThanFourBytes := by
  unfold decode
  split
  next => simp at h; omega
  next => rfl

/-- Settles O8: fewer than four bytes, and the four bytes of a word. -/
theorem decodingTakesFourBytes : Obligations.DecodingTakesFourBytes := by
  intro p o bs
  exact ⟨decode_of_length_lt_four p o, fun w => decode_bytesOfWord_append p o w bs⟩

/-! ### The host's changes between calls -/

/-- Settles O35: the sparse map's read after write, at the port's memory. -/
theorem byteWriteIsReadBack : Obligations.ByteWriteIsReadBack := by
  intro m k b hm hk
  exact ⟨Memory.wf_setByte hm hk b, fun a => Memory.byteAt_setByte hm k a b⟩

/-- Outside a call the step takes the host's next action, if it is no `process` (R54, R172). -/
theorem step_takes_request {s : State} (hp : s.phase = .idle ∨ s.phase = .faulted) {r : HostRequest}
    {rest : List HostRequest} (hreq : s.requests = r :: rest) (hr : ∀ base count, r ≠ .process base count) :
    step s = .next (({ s with requests := rest } : State).takeRequest r) := by
  obtain hidle | hfaulted := hp
  · rw [step_of_idle hidle, stepIdle, hreq]
  · rw [step_of_faulted hfaulted, stepFaulted, hreq]
    cases r with
    | process base count => exact absurd rfl (hr base count)
    | reset | setByte | setTranslation | setAnswer => rfl

/-- Settles O36: the step is the change of the byte. -/
theorem hostChangesAByteBetweenCalls : Obligations.HostChangesAByteBetweenCalls := by
  intro s a b rest hp hmem hreq
  exact ⟨_, step_takes_request hp hreq nofun, rfl, fun x => Memory.byteAt_setByte hmem a.toNat x b⟩

/-- Settles O50: the step is the change of the translation. -/
theorem hostChangesATranslationBetweenCalls : Obligations.HostChangesATranslationBetweenCalls := by
  intro s va lin rest hp htmap hreq
  exact ⟨_, step_takes_request hp hreq nofun, rfl, keysWf_setKey htmap va.isLt lin,
    fun x => translate_setTranslation (s := { s with requests := rest }) htmap va x lin⟩

/-- The host's change of one answer is what the port reads there, and every other read stays (R41, R54): before and after
it a read is the answer listed. -/
theorem memRead_setAnswer {s : State} (hport : s.cfg.port = .table) (hs : keysWf s.answers) (a : Addr) {x : Nat}
    (hx : x + 4 ≤ addrLimit) (w : Option Word) :
    (s.takeRequest (.setAnswer a w)).memRead x = if x = a.toNat then w else s.memRead x := by
  have hport' : (s.takeRequest (.setAnswer a w)).cfg.port = .table := hport
  rw [memRead_table hport' hx, memRead_table hport hx, lookupKey_setAnswer hs]

/-- Settles O52: the step is the change of the answer. -/
theorem hostChangesAnAnswerBetweenCalls : Obligations.HostChangesAnAnswerBetweenCalls := by
  intro s a w rest hp hport hans hreq
  exact ⟨_, step_takes_request hp hreq nofun, rfl, keysWf_setKey hans a.isLt w,
    fun x hx => memRead_setAnswer (s := { s with requests := rest }) hport hans a hx w⟩

/-! ### What an active call leaves unchanged -/

/-- What the block reads and never writes in a call: the parameters, the port's data and the host's coming actions (R34,
R41, R46, R53). -/
def State.surroundings (s : State) : Config × Memory × TransMap × AnswerTable × List HostRequest :=
  (s.cfg, s.mem, s.tmap, s.answers, s.requests)

theorem surroundings_eq_iff {s t : State} :
    t.surroundings = s.surroundings ↔
      t.cfg = s.cfg ∧ t.mem = s.mem ∧ t.tmap = s.tmap ∧ t.answers = s.answers ∧ t.requests = s.requests := by
  simp only [State.surroundings, Prod.mk.injEq]

@[simp] theorem surroundings_raise (s : State) (r : FaultRecord) : (s.raise r).surroundings = s.surroundings := rfl

@[simp] theorem surroundings_endCall (s : State) : s.endCall.surroundings = s.surroundings := rfl

@[simp] theorem surroundings_startRun (s : State) (h : Header) : (s.startRun h).surroundings = s.surroundings := by
  obtain ⟨-, heq⟩ | ⟨-, heq⟩ := startRun_cases s h <;> exact (congrArg State.surroundings heq).trans rfl

@[simp] theorem surroundings_advanceRun (s : State) : s.advanceRun.surroundings = s.surroundings := by
  obtain ⟨-, -, heq⟩ | ⟨-, -, heq⟩ | ⟨-, heq⟩ := advanceRun_cases s <;> exact (congrArg State.surroundings heq).trans rfl

theorem surroundings_dispatch {m : Word} {a : CallArgs} {s t : State} (h : dispatch m a s = .next t) :
    t.surroundings = s.surroundings := by
  obtain ⟨r, rfl⟩ | heq := dispatch_next_cases h
  · exact surroundings_raise s r
  · rw [heq]
    rfl

theorem surroundings_exec_toInstr {h : Header} {s t : State} (hexec : exec h.toInstr s = .next t) :
    t.surroundings = s.surroundings := by
  obtain ⟨-, -, he⟩ | ⟨-, -, he⟩ | ⟨-, he⟩ | ⟨-, he⟩ := exec_toInstr_cases h s <;> have ht := he.symm.trans hexec
  · cases ht
    exact surroundings_startRun s h
  · cases ht
    exact surroundings_raise s _
  · exact (surroundings_dispatch ht).trans rfl
  · cases ht
    exact surroundings_raise s _

/-- The step after a call goes on from the state the call answered. -/
theorem afterCall_eq_next {o : Host.Outcome State Fault Refusal} {t : State} :
    afterCall o = .next t ↔ ∃ u, o = .next u ∧ u.advanceRun = t := by
  cases o <;> simp [afterCall]

theorem surroundings_stepHeader {s t : State} (h : stepHeader s = .next t) : t.surroundings = s.surroundings := by
  by_cases hc : s.cur < s.endAddr
  · obtain ⟨w, -, he⟩ | ⟨-, he⟩ := stepHeader_of_lt hc <;> rw [he] at h
    · exact (surroundings_exec_toInstr h).trans rfl
    · cases h
      exact surroundings_raise s _
  · rw [stepHeader, if_neg hc] at h
    cases h
    exact surroundings_endCall s

theorem surroundings_stepArgs {s t : State} (h : stepArgs s = .next t) : t.surroundings = s.surroundings := by
  obtain ⟨w, -, he⟩ | ⟨-, he⟩ := stepArgs_cases s <;> rw [he] at h
  · rw [← dispatch_eq_exec] at h
    obtain ⟨u, hu, rfl⟩ := afterCall_eq_next.1 h
    calc
      u.advanceRun.surroundings = u.surroundings := surroundings_advanceRun u
      _ = _ := surroundings_dispatch hu
      _ = s.surroundings := rfl
  · cases h
    exact surroundings_raise s _

theorem surroundings_step_of_active {s t : State} (hp : s.phase.active = true) (h : step s = .next t) :
    t.surroundings = s.surroundings := by
  obtain hheader | hargs := Phase.active_eq_true.1 hp
  · exact surroundings_stepHeader (step_of_header hheader ▸ h)
  · exact surroundings_stepArgs (step_of_args hargs ▸ h)

/-- No action of the host changes the parameters, reset included (R34, R180). -/
theorem cfg_takeRequest (s : State) (r : HostRequest) : (s.takeRequest r).cfg = s.cfg := by
  cases r with
  | process base count =>
    obtain ⟨lin, -, heq⟩ | ⟨-, heq⟩ := startCall_cases s base count <;> exact (congrArg State.cfg heq).trans rfl
  | reset | setByte | setTranslation | setAnswer => rfl

/-- Settles O37: in a call all the surroundings stay; outside one the host's actions keep the parameters. -/
theorem activeCallLeavesMemoryAlone : Obligations.ActiveCallLeavesMemoryAlone := by
  intro s t h
  cases hp : s.phase.active with
  | true =>
    obtain ⟨hcfg, hport⟩ := surroundings_eq_iff.1 (surroundings_step_of_active hp h)
    exact ⟨hcfg, fun _ => hport⟩
  | false =>
    refine ⟨?_, nofun⟩
    obtain rfl | ⟨r, rest, -, rfl⟩ := step_cases_of_not_active hp h
    · rfl
    · exact cfg_takeRequest _ r

end Sys2Proof.Machine
end

/-! ## The encoding of headers and of calls, the assembler, and Inline (30_encoding.md R61 to R73; 40_header_decoder.md R80 to
R84; 42_command_list_processor.md R128) -/

section
namespace Sys2Proof

/-! ### A header and the instruction it is -/

@[simp] theorem Header.header?_toInstr (h : Header) : h.toInstr.header? = some h := by
  obtain ⟨f, mode⟩ := h
  cases mode <;> rfl

@[simp] theorem Header.wf_toInstr (p : HdrProfile) (h : Header) : h.toInstr.wf p = h.fields.wf p := by
  obtain ⟨f, mode⟩ := h
  cases mode <;> rfl

@[simp] theorem Header.encode_toInstr (p : HdrProfile) (h : Header) : encode p h.toInstr = encodeHeader p h := by
  obtain ⟨f, mode⟩ := h
  cases mode <;> rfl

theorem Header.toInstr_inj {g h : Header} : g.toInstr = h.toInstr ↔ g = h := by
  refine ⟨fun heq => ?_, congrArg _⟩
  have hsome : some g = some h := by rw [← g.header?_toInstr, heq, h.header?_toInstr]
  exact Option.some.inj hsome

/-! ### From an instruction to its encoding and back -/

/-- Every constructor of `Instr` reads back from its encoding. -/
theorem Laws.EncodingRoundTrip.statement (i : Instr) : Laws.EncodingRoundTrip.Statement i := by
  cases i with
  | increasingOld f => exact increasingOld f
  | increasing f => exact increasing f
  | nonIncreasingOld f => exact nonIncreasingOld f
  | nonIncreasing f => exact nonIncreasing f
  | increaseOnce f => exact increaseOnce f
  | inlineHeader f => exact inlineHeader f
  | invalidMode6 f => exact invalidMode6 f
  | invalidMode7 f => exact invalidMode7 f
  | setGraphMacroEntry a => exact setGraphMacroEntry a
  | setGraphMacroCodeArg a => exact setGraphMacroCodeArg a
  | bindObject a => exact bindObject a
  | setGraphMacroCode a => exact setGraphMacroCode a
  | otherControl m a => exact otherControl m a
  | engineForward m a => exact engineForward m a

/-- Settles O1: the header half of the round trip of every constructor. -/
theorem headerDecodingInvertsEncoding : Obligations.HeaderDecodingInvertsEncoding :=
  fun p i hwf hheader => (Laws.EncodingRoundTrip.statement i p hwf).1 hheader

/-! ### From a word to its header and back -/

/-- The other direction of `modeOf_modeCode`: no two codes name one mode, so the code of an invalid mode is kept too. -/
theorem modeCode_modeOf (p : HdrProfile) (c : BitVec 3) : modeCode p (modeOf p c) = c := by
  cases p <;> revert c <;> decide

theorem toNat_setWidth_lt {m n : Nat} (x : BitVec m) (h : m ≤ n) : (x.setWidth n).toNat < 2 ^ m :=
  (BitVec.toNat_setWidth_of_le h).trans_lt x.isLt

/-- A decoded header has only values that its profile's layout can hold (R61, R63). -/
theorem wf_fields_decodeHeader (p : HdrProfile) (w : Word) : (decodeHeader p w).fields.wf p = true := by
  cases p with
  | doc =>
    simp only [HeaderFields.wf, Bool.and_eq_true, decide_eq_true_eq]
    exact ⟨toNat_setWidth_lt (w.extractLsb' 16 2) (by omega), toNat_setWidth_lt (w.extractLsb' 18 11) (by omega)⟩
  | upstream => exact beq_self_eq_true (w.extractLsb' 16 13)

/-- Three neighbouring ranges that begin at 0, 13 and 16 are the word: the boundaries both layouts have (R61, R63). -/
theorem extractLsb'_append_fields (w : Word) : w.extractLsb' 16 16 ++ w.extractLsb' 13 3 ++ w.extractLsb' 0 13 = w := by
  rw [BitVec.extractLsb'_append_extractLsb'_eq_extractLsb' (by rfl),
    BitVec.extractLsb'_append_extractLsb'_eq_extractLsb' (by rfl)]
  exact BitVec.extractLsb'_eq_self

/-- The fields of either layout cover the word without a gap (R61, R63). -/
theorem encodeHeader_decodeHeader (p : HdrProfile) (w : Word) : encodeHeader p (decodeHeader p w) = w := by
  cases p with
  | doc =>
    simp only [decodeHeader, encodeHeader, modeCode_modeOf]
    rw [BitVec.setWidth_setWidth_of_le _ (by omega), BitVec.setWidth_setWidth_of_le _ (by omega), BitVec.setWidth_eq,
      BitVec.setWidth_eq, BitVec.extractLsb'_append_extractLsb'_eq_extractLsb' (by rfl),
      BitVec.extractLsb'_append_extractLsb'_eq_extractLsb' (by rfl)]
    exact extractLsb'_append_fields w
  | upstream =>
    have hshared : (decodeHeader .upstream w).fields.inlineData = (decodeHeader .upstream w).fields.argCount := rfl
    simp only [encodeHeader, hshared, ite_self]
    simp only [decodeHeader, modeCode_modeOf]
    rw [BitVec.extractLsb'_append_extractLsb'_eq_extractLsb' (by rfl)]
    exact extractLsb'_append_fields w

/-- Both round trips in one: the words that decode to a header are its encoding, if the profile can hold it, and none if not. -/
theorem decodeHeader_eq_iff {p : HdrProfile} {w : Word} {h : Header} :
    decodeHeader p w = h ↔ h.fields.wf p = true ∧ w = encodeHeader p h := by
  constructor
  · rintro rfl
    exact ⟨wf_fields_decodeHeader p w, (encodeHeader_decodeHeader p w).symm⟩
  · rintro ⟨hwf, rfl⟩
    exact decodeHeader_encodeHeader p h hwf

theorem decodeWord_eq_toInstr_iff {p : HdrProfile} {w : Word} {h : Header} :
    decodeWord p w = h.toInstr ↔ h.fields.wf p = true ∧ w = encodeHeader p h :=
  Header.toInstr_inj.trans decodeHeader_eq_iff

/-- Settles O2: the three claims are those of the decoded header. -/
theorem everyWordIsItsHeadersEncoding : Obligations.EveryWordIsItsHeadersEncoding := by
  intro p w
  unfold decodeWord
  rw [Header.wf_toInstr, Header.header?_toInstr, Header.encode_toInstr]
  exact ⟨wf_fields_decodeHeader p w, rfl, encodeHeader_decodeHeader p w⟩

/-! ### The bit ranges as numbers -/

theorem toNat_extractLsb'_eq_div_mod {w : Nat} (x : BitVec w) (a n : Nat) :
    (x.extractLsb' a n).toNat = x.toNat / 2 ^ a % 2 ^ n := by
  rw [BitVec.extractLsb'_toNat, Nat.shiftRight_eq_div_pow]

theorem toNat_extractLsb'_zero {w : Nat} (x : BitVec w) (n : Nat) : (x.extractLsb' 0 n).toNat = x.toNat % 2 ^ n := by
  rw [toNat_extractLsb'_eq_div_mod, pow_zero, Nat.div_one]

/-- The mode code is the top three bits, which a remainder leaves as they are. -/
theorem toNat_extractLsb'_top (w : Word) : (w.extractLsb' 29 3).toNat = w.toNat / 2 ^ 29 := by
  rw [toNat_extractLsb'_eq_div_mod]
  omega

/-- Settles O4: each field is one range of bits, zero-extended where the profile's is the narrower. -/
theorem headerFieldsLieAtFixedBits : Obligations.HeaderFieldsLieAtFixedBits := by
  intro w
  simp only [decodeHeader, modeCode_modeOf]
  rw [BitVec.toNat_setWidth_of_le (by omega), BitVec.toNat_setWidth_of_le (by omega)]
  exact ⟨toNat_extractLsb'_zero w 13, toNat_extractLsb'_eq_div_mod w 13 3, toNat_extractLsb'_eq_div_mod w 16 2,
    toNat_extractLsb'_eq_div_mod w 18 11, toNat_extractLsb'_top w, toNat_extractLsb'_zero w 13,
    toNat_extractLsb'_eq_div_mod w 13 3, toNat_extractLsb'_eq_div_mod w 16 13, toNat_extractLsb'_eq_div_mod w 16 13,
    toNat_extractLsb'_top w⟩

/-- Settles O5: the sixteen codes, each by evaluation of `modeOf`. -/
theorem modeCodesNameTheModes : Obligations.ModeCodesNameTheModes := by
  unfold Obligations.ModeCodesNameTheModes
  decide

/-! ### Method calls -/

theorem isOtherControl_iff {m : Word} :
    isOtherControl m = true ↔
      m.toNat < 0x100 ∧ m.toNat ≠ 0x00 ∧ m.toNat ≠ 0x45 ∧ m.toNat ≠ 0x46 ∧ m.toNat ≠ 0x47 := by
  simp [isOtherControl, ← BitVec.toNat_inj, and_assoc]

/-- The table of R68 as a partition of the method values: every value lies in one row and is its call (R69). -/
theorem decodeCall_cases (m : Word) (a : CallArgs) :
    (m = 0x47 ∧ decodeCall m a = .setGraphMacroEntry a) ∨
    (m = 0x46 ∧ decodeCall m a = .setGraphMacroCodeArg a) ∨
    (m = 0x00 ∧ decodeCall m a = .bindObject a) ∨
    (m = 0x45 ∧ decodeCall m a = .setGraphMacroCode a) ∨
    (isOtherControl m = true ∧ decodeCall m a = .otherControl m a) ∨
    (0x100 ≤ m.toNat ∧ decodeCall m a = .engineForward m a) := by
  by_cases hentry : m = 0x47
  · subst hentry; exact .inl ⟨rfl, rfl⟩
  by_cases harg : m = 0x46
  · subst harg; exact .inr (.inl ⟨rfl, rfl⟩)
  by_cases hbind : m = 0x00
  · subst hbind; exact .inr (.inr (.inl ⟨rfl, rfl⟩))
  by_cases hcode : m = 0x45
  · subst hcode; exact .inr (.inr (.inr (.inl ⟨rfl, rfl⟩)))
  by_cases hlow : m.toNat < 0x100
  · have hother : isOtherControl m = true := by
      simp only [isOtherControl, Bool.and_eq_true, decide_eq_true_eq, bne_iff_ne]
      exact ⟨⟨⟨⟨hlow, hbind⟩, hcode⟩, harg⟩, hentry⟩
    exact .inr (.inr (.inr (.inr (.inl ⟨hother, decodeCall_otherControl hother a⟩))))
  · have hengine : 0x100 ≤ m.toNat := Nat.le_of_not_lt hlow
    exact .inr (.inr (.inr (.inr (.inr ⟨hengine, decodeCall_engineForward hengine a⟩))))

/-- Settles O3: the round trip of each call, and the row of each method value. -/
theorem callClassifyingInvertsEncoding : Obligations.CallClassifyingInvertsEncoding := by
  refine ⟨fun p i m a hwf hcall => (Laws.EncodingRoundTrip.statement i p hwf).2 m a hcall, fun p m a => ?_⟩
  obtain ⟨rfl, heq⟩ | ⟨rfl, heq⟩ | ⟨rfl, heq⟩ | ⟨rfl, heq⟩ | ⟨hm, heq⟩ | ⟨hm, heq⟩ := decodeCall_cases m a <;> rw [heq]
  · exact ⟨rfl, rfl⟩
  · exact ⟨rfl, rfl⟩
  · exact ⟨rfl, rfl⟩
  · exact ⟨rfl, rfl⟩
  · exact ⟨hm, rfl⟩
  · exact ⟨decide_eq_true hm, rfl⟩

/-- A method value of the row OtherControl: class and instruction (R68, R69). -/
theorem classify_and_decodeCall_of_isOtherControl {m : Word} (h : isOtherControl m = true) (a : CallArgs) :
    classify m = .otherControl ∧ decodeCall m a = .otherControl m a := by
  obtain ⟨hlow, hne0, -, hne46, hne47⟩ := isOtherControl_iff.1 h
  obtain ⟨-, -, -, hother, -⟩ := Machine.classify_spec m
  exact ⟨hother.2 ⟨hlow, by rintro rfl; simp at hne47, by rintro rfl; simp at hne46, by rintro rfl; simp at hne0⟩,
    decodeCall_otherControl h a⟩

/-- Settles O6: the four single values by evaluation, the three ranges by the lemmas of their rows. -/
theorem methodNumberSelectsTheBehaviour : Obligations.MethodNumberSelectsTheBehaviour := by
  intro m a
  have eq_of_toNat {k : Word} (h : m.toNat = k.toNat) : m = k := BitVec.eq_of_toNat_eq h
  refine ⟨fun h => ?_, fun h => ?_, fun h => ?_, fun h => ?_, fun h => ?_, fun h => ?_, fun h => ?_⟩
  · obtain rfl := eq_of_toNat (k := 0x00) h
    exact ⟨rfl, rfl⟩
  · exact classify_and_decodeCall_of_isOtherControl (isOtherControl_iff.2 (by omega)) a
  · obtain rfl := eq_of_toNat (k := 0x45) h
    exact ⟨rfl, rfl⟩
  · obtain rfl := eq_of_toNat (k := 0x46) h
    exact ⟨rfl, rfl⟩
  · obtain rfl := eq_of_toNat (k := 0x47) h
    exact ⟨rfl, rfl⟩
  · exact classify_and_decodeCall_of_isOtherControl (isOtherControl_iff.2 (by omega)) a
  · obtain ⟨-, -, -, -, hengine⟩ := Machine.classify_spec m
    exact ⟨hengine.2 h, decodeCall_engineForward h a⟩

end Sys2Proof

namespace Sys2Proof.Machine

open Sys2Proof

/-! ### The assembler -/

/-- The header the assembler encodes for a line's numbers (R71). -/
def asmHeaderOf (mode : Mode) (sc m n d : Nat) : Header :=
  { fields :=
      { method := BitVec.ofNat 13 m
        subchannel := BitVec.ofNat 3 sc
        argCount := BitVec.ofNat 13 n
        inlineData := BitVec.ofNat 13 d }
    mode := mode }

/-- A line's header is assembled exactly when all four of its numbers fit (R71). -/
theorem asmHeader_eq_ok_iff {p : HdrProfile} {mode : Mode} {sc m n d : Nat} {w : Word} :
    asmHeader p mode sc m n d = .ok w ↔
      sc ≤ 7 ∧ m ≤ 0x1FFF ∧ n ≤ maxArgCount p ∧ d ≤ maxInline p ∧ w = encodeHeader p (asmHeaderOf mode sc m n d) := by
  unfold asmHeader
  split
  next hsc => simp [Nat.not_le_of_lt hsc]
  next hsc =>
    split
    next hm => simp [Nat.not_le_of_lt hm]
    next hm =>
      split
      next hn => simp [Nat.not_le_of_lt hn]
      next hn =>
        split
        next hd => simp [Nat.not_le_of_lt hd]
        next hd =>
          simp only [Nat.not_lt] at hsc hm hn hd
          simp only [hsc, hm, hn, hd, true_and, Except.ok.injEq]
          exact eq_comm

theorem asmPacket_eq_ok_iff {p : HdrProfile} {mode : Mode} {sc m : Nat} {vs ws : List Word} :
    asmPacket p mode sc m vs = .ok ws ↔ ∃ w, asmHeader p mode sc m vs.length 0 = .ok w ∧ ws = w :: vs := by
  unfold asmPacket
  cases asmHeader p mode sc m vs.length 0 with
  | ok w => simp [eq_comm]
  | error e => simp

/-- Numbers the assembler takes under `PROFILE_DOC` are fields the profile can hold (R61, R71). -/
theorem wf_asmHeaderOf_doc {n d : Nat} (hn : n ≤ 3) (hd : d ≤ 0x7FF) (mode : Mode) (sc m : Nat) :
    (asmHeaderOf mode sc m n d).fields.wf .doc = true := by
  simp only [asmHeaderOf, HeaderFields.wf, BitVec.toNat_ofNat, Bool.and_eq_true, decide_eq_true_eq]
  omega

/-- Settles O9: the one word that decodes to the line's header is the one the assembler encodes. -/
theorem assemblerWritesIncreasingPackets : Obligations.AssemblerWritesIncreasingPackets := by
  intro sc m vs ws
  have hword (hn : vs.length ≤ 3) (w : Word) :
      decodeWord .doc w = (asmHeaderOf .increasing sc m vs.length 0).toInstr ↔
        w = encodeHeader .doc (asmHeaderOf .increasing sc m vs.length 0) := by
    rw [decodeWord_eq_toInstr_iff, and_iff_right (wf_asmHeaderOf_doc hn (Nat.zero_le _) _ sc m)]
  rw [assembleLine, asmPacket_eq_ok_iff]
  simp only [asmHeader_eq_ok_iff]
  constructor
  · rintro ⟨w, ⟨hsc, hm, hn, -, hw⟩, rfl⟩
    exact ⟨hsc, hm, hn, w, rfl, (hword hn w).2 hw⟩
  · rintro ⟨hsc, hm, hn, w, rfl, hdec⟩
    exact ⟨w, ⟨hsc, hm, hn, Nat.zero_le _, (hword hn w).1 hdec⟩, rfl⟩

/-! ### Inline -/

/-- `methodOf` of Inline's one call is the method zero-extended (R131), so Inline is the call of that value, in the state with
HDR and ARGI set (R128, log 14). -/
theorem exec_inlineHeader (f : HeaderFields) (s : State) :
    exec (.inlineHeader f) s =
      exec (decodeCall (f.method.setWidth 32) ⟨f.subchannel, f.inlineData.setWidth 32, 0⟩)
        { s with hdr := ⟨f, .inlineMode⟩, argi := 0 } := by
  have hmethod : methodOf ⟨f, .inlineMode⟩ 0 = f.method.setWidth 32 := BitVec.ofNat_toNat 32 f.method
  rw [← dispatch_eq_exec, ← hmethod]
  rfl

/-- Settles O20: `exec_inlineHeader` for every header and state. -/
theorem inlineIsTheClassifiedCall : Obligations.InlineIsTheClassifiedCall := exec_inlineHeader

/-- A method on a slot bound to the 3D class is written to the 3D engine (R98, R99). -/
theorem exec_engineForward_of_classMaxwell3D {s : State} {a : CallArgs}
    (hb : s.bindAt a.subchannel = some classMaxwell3D) (m : Word) :
    exec (.engineForward m a) s = .next (s.emit (.write3D m a.value a.remaining)) := by
  simp only [exec, execEngineForward, hb, forwardEvent, if_pos]

/-- A free slot takes the raw value (R95). -/
theorem exec_bindObject_of_free {s : State} {a : CallArgs} (hb : s.bindAt a.subchannel = none) :
    exec (.bindObject a) s = .next (s.setBind a.subchannel a.value) := by
  simp only [exec, execBindObject, hb]

/-- The last code word of a run submits the code with that word added (R93, R94). -/
theorem exec_setGraphMacroCodeArg_of_last {s : State} {a : CallArgs} {e : Word} {c : List Word}
    (hu : s.upload = .accumulating e c) (hr : a.remaining = 0) :
    exec (.setGraphMacroCodeArg a) s = .next (s.flush e (c ++ [a.value])) := by
  simp only [exec, execSetGraphMacroCodeArg, hu, hr, if_pos]

/-- Settles O19: each clause is the call that its method value is, by O6, made in the state of `exec_inlineHeader`. -/
theorem inlineMakesItsOneCall : Obligations.InlineMakesItsOneCall := by
  intro f s
  have hnat : (f.method.setWidth 32).toNat = f.method.toNat := BitVec.toNat_setWidth_of_le (by omega)
  obtain ⟨hbind, -, hcode, harg, hentry, -, hengine⟩ :=
    methodNumberSelectsTheBehaviour (f.method.setWidth 32) ⟨f.subchannel, f.inlineData.setWidth 32, 0⟩
  rw [hnat] at hbind hcode harg hentry hengine
  rw [exec_inlineHeader]
  refine ⟨fun hm hslot => ?_, fun hm hslot => ?_, fun hm => ?_, fun e c hm hupload => ?_, fun hm => ?_⟩
  · rw [(hengine hm).2]
    exact exec_engineForward_of_classMaxwell3D hslot _
  · rw [(hbind hm).2]
    exact exec_bindObject_of_free hslot
  · rw [(hentry hm).2]
    rfl
  · rw [(harg hm).2]
    exact exec_setGraphMacroCodeArg_of_last hupload rfl
  · rw [(hcode hm).2]
    rfl

end Sys2Proof.Machine
end

/-! ## The tabled header words (40_header_decoder.md R80; 95_test_vectors.md section 2) -/

section
namespace Sys2Proof

/-- Settles O7, by running the decoder on the nine words: there is nothing to generalise in a table of fixed words, and what
`decodeWord` does on every word is O2 and O4. -/
theorem specWordsDecodeAsTabled : Obligations.SpecWordsDecodeAsTabled := by
  unfold Obligations.SpecWordsDecodeAsTabled
  decide

end Sys2Proof
end

/-! ## The method dispatcher, and whole packets through it (41_method_dispatcher.md R90 to R104; 42_command_list_processor.md
R123 to R127, R134) -/

section
namespace Sys2Proof.Machine

open Sys2Proof

/-! ### What each call does, case by case -/

/-- A code word with calls of the run still to come is appended (R93). -/
theorem exec_setGraphMacroCodeArg_of_more {s : State} {a : CallArgs} {e : Word} {c : List Word}
    (hu : s.upload = .accumulating e c) (hr : a.remaining ≠ 0) :
    exec (.setGraphMacroCodeArg a) s = .next (s.setUpload (.accumulating e (c ++ [a.value]))) := by
  simp only [exec, execSetGraphMacroCodeArg, hu, if_neg hr]

/-- A code word with no entry selected is a fault (R93, R156). -/
theorem exec_setGraphMacroCodeArg_of_idle {s : State} (hu : s.upload = .idle) (a : CallArgs) :
    exec (.setGraphMacroCodeArg a) s =
      .next (s.raise (s.callRecord .macroNoEntry 0x46 a.subchannel (some a.value))) := by
  simp only [exec, execSetGraphMacroCodeArg, hu]

/-- A bound slot is not bound again (R95, R153). -/
theorem exec_bindObject_of_bound {s : State} {a : CallArgs} (hb : s.bindAt a.subchannel ≠ none) :
    exec (.bindObject a) s = .next (s.raise (s.callRecord .bindConflict 0x00 a.subchannel (some a.value))) := by
  obtain ⟨cls, hcls⟩ := Option.ne_none_iff_exists'.1 hb
  simp only [exec, execBindObject, hcls]

/-- A method on a free slot is a fault (R98, R154). -/
theorem exec_engineForward_of_unbound {s : State} {a : CallArgs} (hb : s.bindAt a.subchannel = none) (m : Word) :
    exec (.engineForward m a) s =
      .next (s.raise (s.callRecord .unboundSubchannel m a.subchannel (some a.value))) := by
  simp only [exec, execEngineForward, hb]

/-- A method on a slot of a known class is that class's write (R98 to R101). -/
theorem exec_engineForward_of_forwardEvent {s : State} {a : CallArgs} {cls m : Word} {e : Event}
    (hb : s.bindAt a.subchannel = some cls) (he : forwardEvent s.cfg cls m a = some e) :
    exec (.engineForward m a) s = .next (s.emit e) := by
  simp only [exec, execEngineForward, hb, he]

/-- A method on a slot of an unknown class is a fault (R102, R155). -/
theorem exec_engineForward_of_unknown {s : State} {a : CallArgs} {cls m : Word}
    (hb : s.bindAt a.subchannel = some cls) (he : forwardEvent s.cfg cls m a = none) :
    exec (.engineForward m a) s =
      .next (s.raise (s.callRecord .unknownEngine m a.subchannel (some a.value))) := by
  simp only [exec, execEngineForward, hb, he]

/-! ### The write of each class -/

/-- R7, as inequalities. -/
theorem Config.wf_iff {c : Config} :
    c.wf = true ↔
      c.classFermiTwoD ≠ classMaxwell3D ∧ c.classMaxwellCompute ≠ classMaxwell3D ∧
        c.classFermiTwoD ≠ c.classMaxwellCompute := by
  simp [Config.wf, and_assoc]

theorem forwardEvent_fermiTwoD {c : Config} (hc : c.wf = true) (m : Word) (a : CallArgs) :
    forwardEvent c c.classFermiTwoD m a = some (.write2D m a.value) := by
  obtain ⟨h2d, -, -⟩ := Config.wf_iff.1 hc
  rw [forwardEvent, if_neg h2d, if_pos rfl]

theorem forwardEvent_maxwellCompute {c : Config} (hc : c.wf = true) (m : Word) (a : CallArgs) :
    forwardEvent c c.classMaxwellCompute m a = some (.writeCompute m a.value) := by
  obtain ⟨-, hcompute, hne⟩ := Config.wf_iff.1 hc
  rw [forwardEvent, if_neg hcompute, if_neg hne.symm, if_pos rfl]

theorem forwardEvent_eq_none {c : Config} {cls : Word} (h3d : cls ≠ classMaxwell3D) (h2d : cls ≠ c.classFermiTwoD)
    (hcompute : cls ≠ c.classMaxwellCompute) (m : Word) (a : CallArgs) : forwardEvent c cls m a = none := by
  rw [forwardEvent, if_neg h3d, if_neg h2d, if_neg hcompute]

/-! ### The statements about single calls -/

/-- Settles O10: the meaning of the call is the write of the new upload. -/
theorem setGraphMacroEntryStartsAnUpload : Obligations.SetGraphMacroEntryStartsAnUpload :=
  fun _ _ => rfl

/-- Settles O11: by what the upload holds and whether a call is left. -/
theorem setGraphMacroCodeArgAppendsOrFlushes : Obligations.SetGraphMacroCodeArgAppendsOrFlushes := by
  refine ⟨rfl, fun a s => ⟨fun e c hu hr => ?_, fun e c hu hr => ?_, fun hu => ?_⟩⟩
  · exact exec_setGraphMacroCodeArg_of_more hu hr
  · exact exec_setGraphMacroCodeArg_of_last hu hr
  · exact exec_setGraphMacroCodeArg_of_idle hu a

/-- Settles O12: a free slot by the read after write of the binding table, a bound one by its fault. -/
theorem bindObjectFillsAFreeSlotOnce : Obligations.BindObjectFillsAFreeSlotOnce := by
  refine ⟨rfl, fun a s => ⟨fun hfree => ?_, fun hbound => ?_⟩⟩
  · exact ⟨_, exec_bindObject_of_free hfree, rfl, fun sc => bindAt_setBind s a.subchannel sc a.value⟩
  · exact exec_bindObject_of_bound hbound

/-- Settles O13: the one diagnostic, and the two meanings that are it. -/
theorem unimplementedControlMethodsOnlyDiagnose : Obligations.UnimplementedControlMethodsOnlyDiagnose := by
  refine ⟨fun d => ?_, fun a s => ⟨rfl, fun m _ => rfl⟩⟩
  cases d
  exact ⟨rfl, rfl⟩

/-- Settles O14: by what the slot holds. -/
theorem engineForwardGoesThroughTheBinding : Obligations.EngineForwardGoesThroughTheBinding := by
  refine ⟨rfl, rfl, fun m a s hcfg _ => ⟨fun hb => ?_, fun hb => ?_, fun hb => ?_, fun c hb h3d h2d hcompute => ?_,
    fun hb => ?_⟩⟩
  · exact exec_engineForward_of_classMaxwell3D hb m
  · exact exec_engineForward_of_forwardEvent hb (forwardEvent_fermiTwoD hcfg m a)
  · exact exec_engineForward_of_forwardEvent hb (forwardEvent_maxwellCompute hcfg m a)
  · exact exec_engineForward_of_unknown hb (forwardEvent_eq_none h3d h2d hcompute m a)
  · exact exec_engineForward_of_unbound hb m

theorem MacroUpload.eq_idle_or_eq_accumulating (u : MacroUpload) : u = .idle ∨ ∃ e c, u = .accumulating e c := by
  cases u with
  | idle => exact .inl rfl
  | accumulating e c => exact .inr ⟨e, c, rfl⟩

/-- A code word goes by what the upload holds, whatever else the state holds (R93, R103). -/
theorem exec_setGraphMacroCodeArg_ignores_bind (a : CallArgs) (s : State) (b : BindTable) :
    ∃ t, exec (.setGraphMacroCodeArg a) s = .next t ∧
      exec (.setGraphMacroCodeArg a) { s with bind := b } = .next { t with bind := b } := by
  obtain hu | ⟨e, c, hu⟩ := s.upload.eq_idle_or_eq_accumulating
  · exact ⟨_, exec_setGraphMacroCodeArg_of_idle hu a,
      exec_setGraphMacroCodeArg_of_idle (s := { s with bind := b }) hu a⟩
  · by_cases hr : a.remaining = 0
    · exact ⟨_, exec_setGraphMacroCodeArg_of_last hu hr,
        exec_setGraphMacroCodeArg_of_last (s := { s with bind := b }) hu hr⟩
    · exact ⟨_, exec_setGraphMacroCodeArg_of_more hu hr,
        exec_setGraphMacroCodeArg_of_more (s := { s with bind := b }) hu hr⟩

/-- Settles O15: by the row of the method; the rows of BindObject and of engine forward are outside the range. -/
theorem controlMethodsIgnoreTheBindings : Obligations.ControlMethodsIgnoreTheBindings := by
  intro m a s b hlow hne
  obtain ⟨-, heq⟩ | ⟨-, heq⟩ | ⟨rfl, -⟩ | ⟨-, heq⟩ | ⟨-, heq⟩ | ⟨hengine, -⟩ := decodeCall_cases m a
  · rw [heq]
    exact ⟨_, rfl, _, rfl, rfl⟩
  · rw [heq]
    obtain ⟨t, ht, hbind⟩ := exec_setGraphMacroCodeArg_ignores_bind a s b
    exact ⟨t, ht, _, hbind, rfl⟩
  · exact absurd rfl hne
  · rw [heq]
    exact ⟨_, rfl, _, rfl, rfl⟩
  · rw [heq]
    exact ⟨_, rfl, _, rfl, rfl⟩
  · omega

/-! ### A call is all or nothing -/

/-- From `s` to `t` nothing but `BIND`, the upload and the trace has changed, and the trace has at most one more event, one of
the dispatcher (R90, R104). -/
def State.CallFrame (s t : State) : Prop :=
  t = { s with bind := t.bind, upload := t.upload, trace := t.trace } ∧
    (t.trace = s.trace ∨ ∃ e, Event.ofDispatch e = true ∧ t.trace = s.trace ++ [e])

theorem callFrame_setBind (s : State) (sc : SubCh) (v : Word) : s.CallFrame (s.setBind sc v) := ⟨rfl, .inl rfl⟩

theorem callFrame_setUpload (s : State) (m : MacroUpload) : s.CallFrame (s.setUpload m) := ⟨rfl, .inl rfl⟩

theorem callFrame_emit (s : State) {e : Event} (he : e.ofDispatch = true) : s.CallFrame (s.emit e) :=
  ⟨rfl, .inr ⟨e, he, rfl⟩⟩

theorem callFrame_flush (s : State) (e : Word) (c : List Word) : s.CallFrame (s.flush e c) :=
  ⟨rfl, .inr ⟨_, rfl, rfl⟩⟩

theorem callFrame_diagUnimplemented (s : State) (m : Word) (a : CallArgs) : s.CallFrame (s.diagUnimplemented m a) :=
  callFrame_emit s rfl

/-- What a method call can do, whatever its method: raise a fault that records it, or stay within the frame (R104). -/
theorem exec_call_cases {i : Instr} {m : Word} {a : CallArgs} (hi : i.call? = some (m, a)) (s : State) :
    (∃ code, exec i s = .next (s.raise (s.callRecord code m a.subchannel (some a.value)))) ∨
      ∃ t, exec i s = .next t ∧ s.CallFrame t := by
  cases i with
  | increasingOld | increasing | nonIncreasingOld | nonIncreasing | increaseOnce | inlineHeader | invalidMode6
  | invalidMode7 => cases hi
  | setGraphMacroEntry =>
    cases hi
    exact .inr ⟨_, rfl, callFrame_setUpload s _⟩
  | setGraphMacroCodeArg =>
    cases hi
    cases hu : s.upload with
    | idle => exact .inl ⟨_, exec_setGraphMacroCodeArg_of_idle hu a⟩
    | accumulating e c =>
      by_cases hr : a.remaining = 0
      · exact .inr ⟨_, exec_setGraphMacroCodeArg_of_last hu hr, callFrame_flush s _ _⟩
      · exact .inr ⟨_, exec_setGraphMacroCodeArg_of_more hu hr, callFrame_setUpload s _⟩
  | bindObject =>
    cases hi
    by_cases hb : s.bindAt a.subchannel = none
    · exact .inr ⟨_, exec_bindObject_of_free hb, callFrame_setBind s _ _⟩
    · exact .inl ⟨_, exec_bindObject_of_bound hb⟩
  | setGraphMacroCode =>
    cases hi
    exact .inr ⟨_, rfl, callFrame_diagUnimplemented s _ a⟩
  | otherControl =>
    cases hi
    exact .inr ⟨_, rfl, callFrame_diagUnimplemented s m a⟩
  | engineForward =>
    cases hi
    cases hb : s.bindAt a.subchannel with
    | none => exact .inl ⟨_, exec_engineForward_of_unbound hb m⟩
    | some cls =>
      cases he : forwardEvent s.cfg cls m a with
      | none => exact .inl ⟨_, exec_engineForward_of_unknown hb he⟩
      | some e =>
        exact .inr ⟨_, exec_engineForward_of_forwardEvent hb he, callFrame_emit s (ofDispatch_of_forwardEvent he)⟩

/-- Settles O16: the two cases of a call, the fault's record being that of the call. -/
theorem callsAreAllOrNothing : Obligations.CallsAreAllOrNothing := by
  intro i s t hcall _ hexec
  obtain ⟨⟨m, a⟩, hi⟩ := Option.ne_none_iff_exists'.1 hcall
  obtain ⟨code, he⟩ | ⟨u, he, hframe⟩ := exec_call_cases hi s <;> cases he.symm.trans hexec
  · exact .inl ⟨rfl, _, rfl, rfl, rfl, rfl, by rw [hi]; rfl, by rw [hi]; rfl, by rw [hi]; rfl⟩
  · obtain ⟨heq, htrace⟩ := hframe
    exact .inr ⟨by rw [heq], heq, htrace⟩

/-! ### Whole packets -/

/-- A packet stands at the cursor of a block at a header position: its header word, of a mode with a run, and the argument
words that the header counts, at least one (R121, R123 to R127). -/
structure State.PacketAhead (s : State) (w : Word) (h : Header) (vs : List Word) : Prop where
  phase : s.phase = .header
  inside : s.cur < s.endAddr
  header_word : s.memRead s.cur = some w
  header : h = decodeHeader s.cfg.profile w
  has_run : modeHasRun h.mode = true
  length : vs.length = argCountOf h
  nonempty : vs ≠ []
  args : ∀ (i : Nat) (hi : i < vs.length), s.memRead (s.cur + 4 + 4 * i) = some vs[i]

/-- From `s`, the packet of header `h` is begun, `i` of its calls are made and the next one is due; the upload is `u`, and `es`
are the events since the header's READ. With all calls made the block's own state differs from this in PHASE and ARGI alone. -/
def State.inPacket (s : State) (w : Word) (h : Header) (i : Nat) (u : MacroUpload) (es : List Event) : State :=
  { s with
    phase := .args, cur := s.cur + 4 + 4 * i, hdr := h, argi := i, hdrAddr := s.cur, hdrWord := w, upload := u
    trace := s.trace ++ [.read s.cur w] ++ es }

/-- The state with the word at the cursor read (R121, R171). -/
def State.afterRead (s : State) (v : Word) : State :=
  { s with cur := s.cur + 4, trace := s.trace ++ [.read s.cur v] }

/-- The operands of call `i` of a run (R90, R132). -/
def runCallArgs (h : Header) (i : Nat) (v : Word) : CallArgs :=
  { subchannel := h.fields.subchannel, value := v, remaining := remainingOf (argCountOf h) i }

/-- A header with a run and an argument word begins its run (R134). -/
theorem exec_toInstr_of_hasRun {h : Header} (hrun : modeHasRun h.mode = true) (hn : argCountOf h ≠ 0) (s : State) :
    exec h.toInstr s = .next { s with phase := .args, hdr := h, argi := 0 } := by
  have hstart : s.startRun h = { s with phase := .args, hdr := h, argi := 0 } := if_neg hn
  obtain ⟨-, -, he⟩ | ⟨-, h0, -⟩ | ⟨hm, -⟩ | ⟨hm | hm, -⟩ := exec_toInstr_cases h s
  · rw [he, hstart]
  · exact absurd h0 hn
  · simp [hm, modeHasRun] at hrun
  · simp [hm, modeHasRun] at hrun
  · simp [hm, modeHasRun] at hrun

/-- The step that reads the packet's header leads to its first call (R121, R134). -/
theorem step_packet_header {s : State} {w : Word} {h : Header} {vs : List Word} (hs : s.PacketAhead w h vs) :
    step s = .next (s.inPacket w h 0 s.upload []) := by
  have hn : argCountOf h ≠ 0 := by
    rw [← hs.length]
    simpa using hs.nonempty
  have hdec : decodeWord s.cfg.profile w = h.toInstr := by rw [decodeWord, hs.header]
  rw [step_of_header hs.phase, stepHeader, if_pos hs.inside, fetchHeader_of_memRead hs.header_word]
  simp only [hdec, exec_toInstr_of_hasRun hs.has_run hn, State.inPacket, List.append_nil, Nat.mul_zero, Nat.add_zero]

/-- A step of a run whose call goes to `t` (R134). -/
theorem step_of_call {s t : State} {v : Word} (hp : s.phase = .args) (hv : s.memRead s.cur = some v)
    (hcall : dispatch (methodOf s.hdr s.argi) (runCallArgs s.hdr s.argi v) (s.afterRead v) = .next t) :
    step s = .next t.advanceRun := by
  rw [dispatch_eq_exec] at hcall
  rw [step_of_args hp, stepArgs, fetchCall_of_memRead hv]
  exact congrArg afterCall hcall

theorem advanceRun_of_more {s : State} (hp : s.phase = .args) (hn : s.argi + 1 ≠ argCountOf s.hdr) :
    s.advanceRun = { s with argi := s.argi + 1 } := by
  rw [State.advanceRun, hp, if_neg hn]

theorem advanceRun_of_last {s : State} (hp : s.phase = .args) (hn : s.argi + 1 = argCountOf s.hdr) :
    s.advanceRun = { s with phase := .header } := by
  rw [State.advanceRun, hp, if_pos hn]

/-- The calls of a packet do what `upload` and `events` tell: call `i`, its argument word read, takes what `i` calls leave to
what `i + 1` calls leave, but for ARGI, which is moved on after the call. -/
def State.CallsFollow (s : State) (w : Word) (h : Header) (vs : List Word) (upload : Nat → MacroUpload)
    (events : Nat → List Event) : Prop :=
  ∀ (i : Nat) (hi : i < vs.length),
    dispatch (methodOf h i) (runCallArgs h i vs[i]) ((s.inPacket w h i (upload i) (events i)).afterRead vs[i]) =
      .next { s.inPacket w h (i + 1) (upload (i + 1)) (events (i + 1)) with argi := i }

section Calls

variable {s : State} {w : Word} {h : Header} {vs : List Word} {upload : Nat → MacroUpload} {events : Nat → List Event}

/-- The step of one call of the packet: the call, then the run moved on. -/
theorem step_packet_call (hs : s.PacketAhead w h vs) (hcalls : s.CallsFollow w h vs upload events) {i : Nat}
    (hi : i < vs.length) :
    step (s.inPacket w h i (upload i) (events i)) =
      .next ({ s.inPacket w h (i + 1) (upload (i + 1)) (events (i + 1)) with argi := i } : State).advanceRun :=
  step_of_call rfl (hs.args i hi) (hcalls i hi)

/-- All calls of the packet but the last leave the block in its run. -/
theorem run_packet_calls (hs : s.PacketAhead w h vs) (hcalls : s.CallsFollow w h vs upload events) {k : Nat}
    (hk : k < vs.length) :
    Host.Core.run Sys2Proof.core k (s.inPacket w h 0 (upload 0) (events 0)) =
      .next (s.inPacket w h k (upload k) (events k)) := by
  induction k with
  | zero => rfl
  | succ k ih =>
    have hmore : k + 1 ≠ argCountOf h := by have := hs.length; omega
    rw [run_add (ih (by omega)), run_succ_of_next (step_packet_call hs hcalls (by omega)), run_zero,
      advanceRun_of_more rfl hmore]
    rfl

/-- A whole packet: a step for its header and one for each argument word, after which the block is at the header position
behind it, with the upload and the events that its calls leave (R121, R123 to R127, R134). -/
theorem run_packet (hs : s.PacketAhead w h vs) (hcalls : s.CallsFollow w h vs upload events)
    (hupload : upload 0 = s.upload) (hevents : events 0 = []) :
    Host.Core.run Sys2Proof.core (vs.length + 1) s =
      .next { s with
        cur := s.cur + 4 + 4 * vs.length
        hdr := h, argi := vs.length - 1, hdrAddr := s.cur, hdrWord := w, upload := upload vs.length
        trace := s.trace ++ [.read s.cur w] ++ events vs.length } := by
  obtain ⟨k, hk⟩ := Nat.exists_eq_succ_of_ne_zero (mt List.length_eq_zero_iff.1 hs.nonempty)
  have hlast : k + 1 = argCountOf h := hk.symm.trans hs.length
  have hheader : step s = .next (s.inPacket w h 0 (upload 0) (events 0)) := by
    rw [hupload, hevents, step_packet_header hs]
  rw [run_succ_of_next hheader, hk, Nat.succ_eq_add_one, run_add (run_packet_calls hs hcalls (by omega)),
    run_succ_of_next (step_packet_call hs hcalls (by omega)), run_zero, advanceRun_of_last rfl hlast]
  simp only [State.inPacket, hs.phase, Nat.add_sub_cancel]

end Calls

/-! ### The operands of the calls of a run -/

/-- The method of a call is its natural number: a run is too short to wrap (R131). -/
theorem toNat_methodOf {h : Header} {i : Nat} (hi : i < argCountOf h) : (methodOf h i).toNat = methodNat h i := by
  have hmethod : h.fields.method.toNat < 2 ^ 13 := h.fields.method.isLt
  have hcount : argCountOf h < 2 ^ 13 := h.fields.argCount.isLt
  have hnat : methodNat h i < 2 ^ 32 := by
    unfold methodNat
    cases h.mode with
    | increaseOnce => dsimp only; split <;> omega
    | increasingOld | increasing | nonIncreasingOld | nonIncreasing | inlineMode | invalid6 | invalid7 =>
      dsimp only; omega
  rw [methodOf, BitVec.toNat_ofNat, Nat.mod_eq_of_lt hnat]

/-- The last call of a run, and no other, has no call left (R132). -/
theorem remainingOf_eq_zero_iff {h : Header} {i : Nat} (hi : i < argCountOf h) :
    remainingOf (argCountOf h) i = 0 ↔ i + 1 = argCountOf h := by
  have hcount : argCountOf h < 2 ^ 13 := h.fields.argCount.isLt
  rw [remainingOf, ← BitVec.toNat_inj, BitVec.toNat_ofNat, Nat.mod_eq_of_lt (by omega),
    BitVec.ofNat_eq_ofNat, BitVec.toNat_ofNat, Nat.zero_mod]
  omega

/-- The words numbered from 0: one more word adds the entry of its number. -/
theorem zipIdx_take_succ {vs : List Word} {i : Nat} (hi : i < vs.length) :
    (vs.take (i + 1)).zipIdx = (vs.take i).zipIdx ++ [(vs[i], i)] := by
  rw [List.take_succ_eq_append_getElem hi, List.zipIdx_append]
  simp [Nat.min_eq_left hi.le]

/-! ### A packet to the 3D engine -/

/-- What one call of a packet to the 3D engine leaves in the trace: its READ and its write (R99). -/
def threeDCallEvents (h : Header) (n a : Nat) (x : Word × Nat) : List Event :=
  [.read (a + 4 * x.2) x.1, .write3D (methodOf h x.2) x.1 (remainingOf n x.2)]

/-- Each call of the packet is its READ and its write, and the upload stays (R98, R99). -/
theorem threeDCalls_follow {s : State} {w : Word} {h : Header} {vs : List Word} (hs : s.PacketAhead w h vs)
    (hbind : s.bindAt h.fields.subchannel = some classMaxwell3D)
    (hengine : ∀ i, i < vs.length → 0x100 ≤ methodNat h i) :
    s.CallsFollow w h vs (fun _ => s.upload)
      fun i => (vs.take i).zipIdx.flatMap (threeDCallEvents h vs.length (s.cur + 4)) := by
  intro i hi
  have hmethod : 0x100 ≤ (methodOf h i).toNat := by
    rw [toNat_methodOf (hs.length ▸ hi)]
    exact hengine i hi
  rw [dispatch_eq_exec, decodeCall_engineForward hmethod,
    exec_engineForward_of_classMaxwell3D (s := (s.inPacket w h i s.upload _).afterRead vs[i])
      (a := runCallArgs h i vs[i]) hbind]
  simp [State.inPacket, State.afterRead, State.emit, runCallArgs, zipIdx_take_succ hi, threeDCallEvents, hs.length,
    Nat.mul_add, Nat.add_assoc]

/-- Settles O48: a run of calls each of which reads and writes. -/
theorem threeDPacketWritesEveryArgument : Obligations.ThreeDPacketWritesEveryArgument := by
  intro s w h vs hphase hinside hword hdec hrun hlength hne hargs hbind hengine
  have hs : s.PacketAhead w h vs := ⟨hphase, hinside, hword, hdec, hrun, hlength, hne, hargs⟩
  rw [run_packet hs (threeDCalls_follow hs hbind hengine) rfl rfl, List.take_length]
  rfl

/-! ### A packet of code words -/

/-- The upload with `i` of the packet's code words taken: Idle after the last (R93, R94). -/
def codePacketUpload (e : Word) (c vs : List Word) (i : Nat) : MacroUpload :=
  if i = vs.length then .idle else .accumulating e (c ++ vs.take i)

/-- The events of the packet with `i` of its code words taken: their READs, and after the last the submission (R94). -/
def codePacketEvents (e : Word) (c vs : List Word) (a i : Nat) : List Event :=
  (vs.take i).zipIdx.map (fun x => Event.read (a + 4 * x.2) x.1) ++
    if i = vs.length then [.submitMacro e (c ++ vs.take i)] else []

theorem methodOf_of_nonIncreasing {h : Header} (hm : h.mode = .nonIncreasing ∨ h.mode = .nonIncreasingOld) (i : Nat) :
    methodOf h i = h.fields.method.setWidth 32 := by
  have hnat : methodNat h i = h.fields.method.toNat := by
    obtain hm | hm := hm <;> rw [methodNat, hm]
  rw [methodOf, hnat, BitVec.ofNat_toNat]

theorem codePacketUpload_of_lt {e : Word} {c vs : List Word} {i : Nat} (hi : i < vs.length) :
    codePacketUpload e c vs i = .accumulating e (c ++ vs.take i) := if_neg hi.ne

theorem codePacketEvents_of_lt {e : Word} {c vs : List Word} {a i : Nat} (hi : i < vs.length) :
    codePacketEvents e c vs a i = (vs.take i).zipIdx.map (fun x => Event.read (a + 4 * x.2) x.1) := by
  rw [codePacketEvents, if_neg hi.ne, List.append_nil]

theorem codePacketUpload_of_eq {e : Word} {c vs : List Word} {i : Nat} (hi : i = vs.length) :
    codePacketUpload e c vs i = .idle := if_pos hi

theorem codePacketEvents_of_eq {e : Word} {c vs : List Word} {a i : Nat} (hi : i = vs.length) :
    codePacketEvents e c vs a i =
      (vs.take i).zipIdx.map (fun x => Event.read (a + 4 * x.2) x.1) ++ [.submitMacro e (c ++ vs.take i)] := by
  rw [codePacketEvents, if_pos hi]

/-- Each call of the packet appends its word, and the last one submits (R93, R94). -/
theorem codeCalls_follow {s : State} {w : Word} {h : Header} {vs : List Word} (hs : s.PacketAhead w h vs)
    (hmode : h.mode = .nonIncreasing ∨ h.mode = .nonIncreasingOld) (hmethod : h.fields.method = 0x46) (e : Word)
    (c : List Word) :
    s.CallsFollow w h vs (codePacketUpload e c vs) (codePacketEvents e c vs (s.cur + 4)) := by
  intro i hi
  have hcall : decodeCall (methodOf h i) (runCallArgs h i vs[i]) = .setGraphMacroCodeArg (runCallArgs h i vs[i]) := by
    rw [methodOf_of_nonIncreasing hmode, hmethod]
    rfl
  have hlast : (runCallArgs h i vs[i]).remaining = 0 ↔ i + 1 = vs.length := by
    rw [hs.length]
    exact remainingOf_eq_zero_iff (hs.length ▸ hi)
  have htake : vs.take (i + 1) = vs.take i ++ [vs[i]] := List.take_succ_eq_append_getElem hi
  rw [dispatch_eq_exec, hcall, codePacketUpload_of_lt hi, codePacketEvents_of_lt hi]
  by_cases hn : i + 1 = vs.length
  · rw [exec_setGraphMacroCodeArg_of_last rfl (hlast.2 hn), codePacketUpload_of_eq hn, codePacketEvents_of_eq hn,
      zipIdx_take_succ hi, htake]
    simp [State.inPacket, State.afterRead, State.flush, State.emit, State.setUpload, runCallArgs, Nat.mul_add,
      Nat.add_assoc]
  · rw [exec_setGraphMacroCodeArg_of_more rfl (mt hlast.1 hn), codePacketUpload_of_lt (by omega),
      codePacketEvents_of_lt (by omega), zipIdx_take_succ hi, htake]
    simp [State.inPacket, State.afterRead, State.setUpload, runCallArgs, Nat.mul_add, Nat.add_assoc]

/-- Settles O49: a run of calls each of which appends, the last one submitting. -/
theorem macroPacketSubmitsItsWordsOnce : Obligations.MacroPacketSubmitsItsWordsOnce := by
  intro s w h vs e c hphase hinside hword hdec hmode hmethod hlength hne hargs hupload
  have hrun : modeHasRun h.mode = true := by
    obtain hm | hm := hmode <;> rw [hm] <;> rfl
  have hs : s.PacketAhead w h vs := ⟨hphase, hinside, hword, hdec, hrun, hlength, hne, hargs⟩
  have hpos : 0 < vs.length := List.length_pos_iff.2 hne
  have hupload0 : codePacketUpload e c vs 0 = s.upload := by
    rw [codePacketUpload_of_lt hpos, List.take_zero, List.append_nil, hupload]
  rw [run_packet hs (codeCalls_follow hs hmode hmethod e c) hupload0 (codePacketEvents_of_lt hpos),
    codePacketUpload_of_eq rfl, codePacketEvents_of_eq rfl, List.take_length, ← List.append_assoc]

end Sys2Proof.Machine
end

/-! ## Headers, the calls of a run and the steps of a call (42_command_list_processor.md R120 to R135) -/

section
namespace Sys2Proof.Machine

open Sys2Proof

/-! ### What the meaning of a header and a call answer -/

/-- A header with no argument word to wait for changes nothing, but for IncreaseOnce (R135). -/
theorem exec_toInstr_of_no_args {h : Header} (hrun : modeHasRun h.mode = true) (honce : h.mode ≠ .increaseOnce)
    (hn : argCountOf h = 0) (s : State) : exec h.toInstr s = .next s := by
  have hstart : s.startRun h = s := if_pos hn
  obtain ⟨-, -, he⟩ | ⟨hm, -⟩ | ⟨hm, -⟩ | ⟨hm | hm, -⟩ := exec_toInstr_cases h s
  · rw [he, hstart]
  · exact absurd hm honce
  · simp [hm, modeHasRun] at hrun
  · simp [hm, modeHasRun] at hrun
  · simp [hm, modeHasRun] at hrun

/-- IncreaseOnce with no argument word is a contract violation (R127, R152). -/
theorem exec_increaseOnce_of_no_args {f : HeaderFields} (hn : f.argCount.toNat = 0) (s : State) :
    exec (.increaseOnce f) s = .next (s.raise (s.headerRecord .increaseOnceZero)) :=
  if_pos hn

/-- A header of an invalid mode always faults (R122, R151). -/
theorem exec_toInstr_of_invalid {h : Header} (hm : h.mode = .invalid6 ∨ h.mode = .invalid7) (s : State) :
    exec h.toInstr s = .next (s.raise (s.headerRecord .unknownMode)) := by
  obtain ⟨f, mode⟩ := h
  obtain rfl | rfl := hm <;> rfl

/-- `exec_call_cases` for the call that a method value is. -/
theorem dispatch_raises_or_callFrame (m : Word) (a : CallArgs) (s : State) :
    (∃ r, dispatch m a s = .next (s.raise r)) ∨ ∃ t, dispatch m a s = .next t ∧ s.CallFrame t := by
  have hcall : (decodeCall m a).call? = some (m, a) := (callClassifyingInvertsEncoding.2 .doc m a).2
  rw [dispatch_eq_exec]
  obtain ⟨code, he⟩ | hframe := exec_call_cases hcall s
  · exact .inl ⟨_, he⟩
  · exact .inr hframe

theorem State.CallFrame.phase {s t : State} (h : s.CallFrame t) : t.phase = s.phase :=
  (congrArg State.phase h.1).trans rfl

theorem State.CallFrame.hdr {s t : State} (h : s.CallFrame t) : t.hdr = s.hdr :=
  (congrArg State.hdr h.1).trans rfl

theorem State.CallFrame.argi {s t : State} (h : s.CallFrame t) : t.argi = s.argi :=
  (congrArg State.argi h.1).trans rfl

/-- Every instruction is a header or a method call (R3). -/
theorem eq_toInstr_or_call?_eq_some (i : Instr) : (∃ h : Header, i = h.toInstr) ∨ ∃ m a, i.call? = some (m, a) := by
  cases i with
  | increasingOld f => exact .inl ⟨⟨f, .increasingOld⟩, rfl⟩
  | increasing f => exact .inl ⟨⟨f, .increasing⟩, rfl⟩
  | nonIncreasingOld f => exact .inl ⟨⟨f, .nonIncreasingOld⟩, rfl⟩
  | nonIncreasing f => exact .inl ⟨⟨f, .nonIncreasing⟩, rfl⟩
  | increaseOnce f => exact .inl ⟨⟨f, .increaseOnce⟩, rfl⟩
  | inlineHeader f => exact .inl ⟨⟨f, .inlineMode⟩, rfl⟩
  | invalidMode6 f => exact .inl ⟨⟨f, .invalid6⟩, rfl⟩
  | invalidMode7 f => exact .inl ⟨⟨f, .invalid7⟩, rfl⟩
  | setGraphMacroEntry | setGraphMacroCodeArg | bindObject | setGraphMacroCode | otherControl | engineForward =>
    exact .inr ⟨_, _, rfl⟩

/-! ### What the step of each phase is -/

/-- The state with the header word at the cursor read and kept for a fault record (R121, log 5). -/
def State.afterHeader (s : State) (w : Word) : State := { s.afterRead w with hdrAddr := s.cur, hdrWord := w }

/-- The step of a header that the port answers (R121, R134). -/
theorem step_of_header_of_memRead {s : State} {w : Word} (hp : s.phase = .header) (hc : s.cur < s.endAddr)
    (hw : s.memRead s.cur = some w) : step s = exec (decodeWord s.cfg.profile w) (s.afterHeader w) := by
  rw [step_of_header hp, stepHeader, if_pos hc, fetchHeader_of_memRead hw]
  rfl

/-- The step of a header whose read fails (R121, R157). -/
theorem step_of_header_of_memRead_none {s : State} (hp : s.phase = .header) (hc : s.cur < s.endAddr)
    (hw : s.memRead s.cur = none) : step s = .next (s.raise (noRunRecord .port)) := by
  rw [step_of_header hp, stepHeader, if_pos hc, fetchHeader_of_memRead_none hw]

/-- At a header position at or past the end of the region the step is the end of the call (R130). -/
theorem step_of_header_of_le {s : State} (hp : s.phase = .header) (hc : s.endAddr ≤ s.cur) :
    step s = .next s.endCall := by
  rw [step_of_header hp, stepHeader, if_neg (Nat.not_lt.2 hc)]

/-- In a run a failed read of the argument word is a fault (R157). -/
theorem step_of_args_of_memRead_none {s : State} (hp : s.phase = .args) (hv : s.memRead s.cur = none) :
    step s = .next (s.raise (s.callRecord .port (methodOf s.hdr s.argi) s.hdr.fields.subchannel none)) := by
  rw [step_of_args hp, stepArgs, fetchCall_of_memRead_none hv]

/-- The step of an Idle block with `process` waiting is the start of the call (R120, R134). -/
theorem step_of_process {s : State} {base : Addr} {count : Word} {rest : List HostRequest} (hp : s.phase = .idle)
    (hreq : s.requests = .process base count :: rest) :
    step s = .next (({ s with requests := rest } : State).startCall base count) := by
  rw [step_of_idle hp, stepIdle, hreq]
  rfl

/-- The start of a call whose base translates enters the region (R120). -/
theorem startCall_of_translate {s : State} {base lin : Addr} (h : s.translate base = some lin) (count : Word) :
    s.startCall base count =
      { s with
        cur := lin.toNat, endAddr := lin.toNat + count.toNat * 4, phase := .header
        trace := s.trace ++ [.translate base lin] } := by
  rw [State.startCall, h]

/-- The start of a call whose base does not translate is a fault (R120, R157). -/
theorem startCall_of_translate_none {s : State} {base : Addr} (h : s.translate base = none) (count : Word) :
    s.startCall base count = s.raise (noRunRecord .port) := by
  rw [State.startCall, h]

/-- A memory-backed port answers the word of its four bytes, aligned if it wants that (R44, R45). -/
theorem memoryRead_of_mapped_of_aligned {m : Memory} {a : Nat} {al : Bool} (ha : al = true → a % 4 = 0)
    {b0 b1 b2 b3 : Byte} (h0 : m.byteAt a = some b0) (h1 : m.byteAt (a + 1) = some b1)
    (h2 : m.byteAt (a + 2) = some b2) (h3 : m.byteAt (a + 3) = some b3) (o : ByteOrder) :
    memoryRead o al m a = some (wordOfBytes o b0 b1 b2 b3) := by
  unfold memoryRead
  rw [if_neg (by simpa using ha), h0, h1, h2, h3]

/-! ### Headers -/

/-- Settles O17: a run header is its run begun, or nothing. -/
theorem runHeadersBeginTheirRun : Obligations.RunHeadersBeginTheirRun := by
  intro f s
  have hbegins (mode : Mode) (hrun : modeHasRun mode = true) (hn : f.argCount.toNat ≠ 0) :=
    exec_toInstr_of_hasRun (h := ⟨f, mode⟩) hrun hn s
  have hstays (mode : Mode) (hrun : modeHasRun mode = true) (honce : mode ≠ .increaseOnce) (hn : f.argCount.toNat = 0) :=
    exec_toInstr_of_no_args (h := ⟨f, mode⟩) hrun honce hn s
  refine ⟨fun hn => ?_, fun hn => ?_⟩
  · exact ⟨hbegins .increasingOld rfl hn, hbegins .increasing rfl hn, hbegins .nonIncreasingOld rfl hn,
      hbegins .nonIncreasing rfl hn⟩
  · exact ⟨hstays .increasingOld rfl nofun hn, hstays .increasing rfl nofun hn, hstays .nonIncreasingOld rfl nofun hn,
      hstays .nonIncreasing rfl nofun hn⟩

/-- Settles O18: by whether there is an argument word. -/
theorem increaseOnceNeedsAnArgument : Obligations.IncreaseOnceNeedsAnArgument := by
  refine ⟨rfl, fun f s => ⟨fun hn => ?_, fun hn => ?_⟩⟩
  · exact exec_toInstr_of_hasRun (h := ⟨f, .increaseOnce⟩) rfl hn s
  · exact exec_increaseOnce_of_no_args hn s

theorem six_le_modeCode_iff {p : HdrProfile} {m : Mode} :
    6 ≤ (modeCode p m).toNat ↔ m = .invalid6 ∨ m = .invalid7 := by
  cases p <;> cases m <;> decide

/-- The mode code is the top three bits of the word under both profiles (R61, R63). -/
theorem toNat_modeCode_decodeHeader (p : HdrProfile) (w : Word) :
    (modeCode p (decodeHeader p w).mode).toNat = w.toNat / 2 ^ 29 := by
  obtain ⟨-, -, -, -, hdoc, -, -, -, -, hupstream⟩ := headerFieldsLieAtFixedBits w
  cases p with
  | doc => exact hdoc
  | upstream => exact hupstream

/-- Settles O21: the fault of an invalid mode, and the step that reads one. -/
theorem invalidModesFault : Obligations.InvalidModesFault := by
  refine ⟨rfl, fun f s r hr => ?_, fun s w hp hc hw hcode => ?_⟩
  · subst hr
    exact ⟨rfl, rfl⟩
  · rw [← toNat_modeCode_decodeHeader s.cfg.profile w, six_le_modeCode_iff] at hcode
    rw [step_of_header_of_memRead hp hc hw, decodeWord, exec_toInstr_of_invalid hcode]
    rfl

/-- Settles O24: a header by its modes, Inline and every call by the two cases of a call. -/
theorem everyInstructionAnswersANextState : Obligations.EveryInstructionAnswersANextState := by
  intro i s
  obtain ⟨h, rfl⟩ | ⟨m, a, hcall⟩ := eq_toInstr_or_call?_eq_some i
  · obtain ⟨-, -, he⟩ | ⟨-, -, he⟩ | ⟨-, he⟩ | ⟨-, he⟩ := exec_toInstr_cases h s
    · exact ⟨_, he⟩
    · exact ⟨_, he⟩
    · obtain ⟨r, hd⟩ | ⟨t, hd, -⟩ := dispatch_raises_or_callFrame (methodOf h 0) _ _
      · exact ⟨_, he.trans hd⟩
      · exact ⟨t, he.trans hd⟩
    · exact ⟨_, he⟩
  · obtain ⟨code, he⟩ | ⟨t, he, -⟩ := exec_call_cases hcall s
    · exact ⟨_, he⟩
    · exact ⟨t, he⟩

/-! ### The operands of the calls of a run -/

/-- Settles O22: the method of a call is its natural number, and the widths of the profile bound it. -/
theorem methodOfEachCallIsExact : Obligations.MethodOfEachCallIsExact := by
  refine ⟨fun f => ?_, fun p f i hwf hi => ?_⟩
  · exact (congrArg BitVec.toNat (BitVec.ofNat_toNat 32 f.method)).trans (BitVec.toNat_setWidth_of_le (by omega))
  · have hexact (mode : Mode) := toNat_methodOf (h := ⟨f, mode⟩) hi
    refine ⟨hexact .increasingOld, hexact .increasing, hexact .nonIncreasingOld, hexact .nonIncreasing,
      hexact .increaseOnce, ?_⟩
    have hmethod : f.method.toNat < 2 ^ 13 := f.method.isLt
    have hcount : f.argCount.toNat < 2 ^ 13 := f.argCount.isLt
    cases p with
    | doc =>
      have hfits : f.argCount.toNat < 4 := by
        simp only [HeaderFields.wf, Bool.and_eq_true, decide_eq_true_eq] at hwf
        exact hwf.1
      dsimp only
      omega
    | upstream => dsimp only; omega

/-- Settles O23: a run is too short for the count to wrap. -/
theorem remainingCountsTheCallsLeft : Obligations.RemainingCountsTheCallsLeft := by
  intro h i hi
  have hcount : argCountOf h < 2 ^ 13 := h.fields.argCount.isLt
  refine ⟨?_, remainingOf_eq_zero_iff hi⟩
  rw [remainingOf, BitVec.toNat_ofNat, Nat.mod_eq_of_lt (by omega)]
  omega

/-! ### One step of each phase -/

/-- Settles O25: the step of a header that the port answers, and the answer of a memory-backed port. -/
theorem stepRunsTheHeaderAtTheCursor : Obligations.StepRunsTheHeaderAtTheCursor := by
  refine ⟨fun s w hp hc hw => step_of_header_of_memRead hp hc hw, ?_⟩
  intro s o al b0 b1 b2 b3 i hp hc hlimit hport hal h0 h1 h2 h3 hdec
  have hw : s.memRead s.cur = some (wordOfBytes o b0 b1 b2 b3) :=
    (memRead_memory hport hlimit).trans (memoryRead_of_mapped_of_aligned hal h0 h1 h2 h3 o)
  have hi : decodeWord s.cfg.profile (wordOfBytes o b0 b1 b2 b3) = i := by
    simpa [decode] using hdec
  rw [step_of_header_of_memRead hp hc hw, hi]
  rfl

/-- Settles O26: a call that has faulted has left PHASE so, and any other has left PHASE, HDR and ARGI to the run. -/
theorem stepMakesTheNextCallOfTheRun : Obligations.StepMakesTheNextCallOfTheRun := by
  intro s t w hp hw hexec
  rw [← dispatch_eq_exec] at hexec
  rw [step_of_call hp hw hexec]
  obtain ⟨r, hcall⟩ | ⟨u, hcall, hframe⟩ :=
    dispatch_raises_or_callFrame (methodOf s.hdr s.argi) (runCallArgs s.hdr s.argi w) (s.afterRead w) <;>
    cases hcall.symm.trans hexec
  · exact ⟨fun _ => rfl, fun hne => absurd rfl hne, fun hne => absurd rfl hne⟩
  · have hphase : t.phase = .args := hframe.phase.trans hp
    have hhdr : t.hdr = s.hdr := hframe.hdr
    have hargi : t.argi = s.argi := hframe.argi
    refine ⟨fun hf => absurd (hphase.symm.trans hf) nofun, fun _ hlast => ?_, fun _ hmore => ?_⟩
    · rw [advanceRun_of_last hphase (by rw [hargi, hhdr, hlast])]
    · rw [advanceRun_of_more hphase (by rw [hargi, hhdr]; exact hmore), hargi]

/-- Settles O27: the start of a call whose base translates. -/
theorem processEntersTheRegion : Obligations.ProcessEntersTheRegion := by
  intro s base lin count rest hp hreq hlin
  rw [step_of_process hp hreq, startCall_of_translate (s := { s with requests := rest }) hlin]

/-- Settles O28: the step is the end of the call. -/
theorem callEndsAtTheRegionsEnd : Obligations.CallEndsAtTheRegionsEnd :=
  fun _ hp hc => step_of_header_of_le hp hc

/-- Settles O29: each of the three port calls that can fail, and the reads with no port call. -/
theorem portFailuresFault : Obligations.PortFailuresFault := by
  refine ⟨rfl, fun s base count rest hp hreq hnone => ?_, fun s hp hc hnone => ?_, fun s hp hnone => ?_, fun s a ha => ?_⟩
  · rw [step_of_process hp hreq, startCall_of_translate_none (s := { s with requests := rest }) hnone]
    rfl
  · exact step_of_header_of_memRead_none hp hc hnone
  · exact step_of_args_of_memRead_none hp hnone
  · exact memRead_eq_none_of_limit ha

/-! ### What one step adds to the trace -/

/-- From `s` to `t` the trace has grown by at most one event, which is no READ. -/
def State.EmitsAtMostOnce (s t : State) : Prop :=
  ∃ es, t.trace = s.trace ++ es ∧ readAddrs es = [] ∧ es.length ≤ 1

theorem emitsAtMostOnce_of_trace_eq {s t : State} (h : t.trace = s.trace) : s.EmitsAtMostOnce t :=
  ⟨[], by rw [h, List.append_nil], rfl, Nat.zero_le _⟩

theorem emitsAtMostOnce_of_event {s t : State} {e : Event} (h : t.trace = s.trace ++ [e]) (he : readAddrs [e] = []) :
    s.EmitsAtMostOnce t :=
  ⟨[e], h, he, le_rfl⟩

theorem emitsAtMostOnce_raise (s : State) (r : FaultRecord) : s.EmitsAtMostOnce (s.raise r) :=
  emitsAtMostOnce_of_event rfl rfl

theorem State.CallFrame.emitsAtMostOnce {s t : State} (h : s.CallFrame t) : s.EmitsAtMostOnce t := by
  obtain htrace | ⟨e, he, htrace⟩ := h.2
  · exact emitsAtMostOnce_of_trace_eq htrace
  · exact emitsAtMostOnce_of_event htrace (readAddrs_eq_nil_of_ofDispatch he)

theorem emitsAtMostOnce_dispatch {m : Word} {a : CallArgs} {s t : State} (h : dispatch m a s = .next t) :
    s.EmitsAtMostOnce t := by
  obtain ⟨r, hcall⟩ | ⟨u, hcall, hframe⟩ := dispatch_raises_or_callFrame m a s <;> cases hcall.symm.trans h
  · exact emitsAtMostOnce_raise s r
  · exact hframe.emitsAtMostOnce

theorem trace_startRun (s : State) (h : Header) : (s.startRun h).trace = s.trace := by
  obtain ⟨-, heq⟩ | ⟨-, heq⟩ := startRun_cases s h <;> rw [heq]

theorem trace_advanceRun (s : State) : s.advanceRun.trace = s.trace := by
  obtain ⟨-, -, heq⟩ | ⟨-, -, heq⟩ | ⟨-, heq⟩ := advanceRun_cases s <;> rw [heq]

/-- A header's meaning emits the one event of Inline's call, or of its fault (R122, R127, R128). -/
theorem emitsAtMostOnce_exec_toInstr {h : Header} {s t : State} (hexec : exec h.toInstr s = .next t) :
    s.EmitsAtMostOnce t := by
  obtain ⟨-, -, he⟩ | ⟨-, -, he⟩ | ⟨-, he⟩ | ⟨-, he⟩ := exec_toInstr_cases h s <;> have ht := he.symm.trans hexec
  · cases ht
    exact emitsAtMostOnce_of_trace_eq (trace_startRun s h)
  · cases ht
    exact emitsAtMostOnce_raise s _
  · have hinline : State.EmitsAtMostOnce { s with hdr := h, argi := 0 } t := emitsAtMostOnce_dispatch ht
    exact hinline
  · cases ht
    exact emitsAtMostOnce_raise s _

/-- A host action emits the TRANSLATE or the fault of `process`, or nothing (R120, R172). -/
theorem emitsAtMostOnce_takeRequest (s : State) (r : HostRequest) : s.EmitsAtMostOnce (s.takeRequest r) := by
  cases r with
  | process base count =>
    obtain ⟨lin, -, heq⟩ | ⟨-, heq⟩ := startCall_cases s base count <;> rw [State.takeRequest, heq]
    · exact emitsAtMostOnce_of_event rfl rfl
    · exact emitsAtMostOnce_raise s _
  | reset | setByte | setTranslation | setAnswer => exact emitsAtMostOnce_of_trace_eq rfl

/-- What any step adds to the trace: at most one event that is no READ, after the READ of at most one word (R134). -/
theorem step_emits_cases {s t : State} (h : step s = .next t) :
    s.EmitsAtMostOnce t ∨ ∃ w, (s.afterRead w).EmitsAtMostOnce t := by
  cases hp : s.phase with
  | idle | faulted =>
    obtain rfl | ⟨r, rest, -, rfl⟩ := step_cases_of_not_active (by rw [hp]; rfl) h
    · exact .inl (emitsAtMostOnce_of_trace_eq rfl)
    · exact .inl (emitsAtMostOnce_takeRequest { s with requests := rest } r)
  | header =>
    by_cases hc : s.cur < s.endAddr
    · cases hw : s.memRead s.cur with
      | none =>
        cases (step_of_header_of_memRead_none hp hc hw).symm.trans h
        exact .inl (emitsAtMostOnce_raise s _)
      | some w =>
        have hheader : (s.afterHeader w).EmitsAtMostOnce t :=
          emitsAtMostOnce_exec_toInstr ((step_of_header_of_memRead hp hc hw).symm.trans h)
        exact .inr ⟨w, hheader⟩
    · cases (step_of_header_of_le hp (Nat.le_of_not_lt hc)).symm.trans h
      exact .inl (emitsAtMostOnce_of_event rfl rfl)
  | args =>
    obtain ⟨w, -, he⟩ | ⟨-, he⟩ := stepArgs_cases s <;> have ht := he.symm.trans (step_of_args hp ▸ h)
    · rw [← dispatch_eq_exec] at ht
      obtain ⟨u, hu, rfl⟩ := afterCall_eq_next.1 ht
      obtain ⟨es, htrace, hes⟩ := emitsAtMostOnce_dispatch hu
      exact .inr ⟨w, es, (trace_advanceRun u).trans htrace, hes⟩
    · cases ht
      exact .inl (emitsAtMostOnce_raise s _)

/-- Settles O43: the READ is no event of the dispatcher, and what follows it is at most one event. -/
theorem oneStepReadsOnceAndEmitsOneEngineEventAtMost : Obligations.OneStepReadsOnceAndEmitsOneEngineEventAtMost := by
  intro s t h
  obtain ⟨es, htrace, hreads, hlen⟩ | ⟨w, es, htrace, hreads, hlen⟩ := step_emits_cases h
  · exact ⟨es, htrace, by simp [hreads], (List.length_filter_le _ _).trans hlen⟩
  · refine ⟨.read s.cur w :: es, by simp [htrace, State.afterRead], by simp [hreads], ?_⟩
    rw [List.filter_cons_of_neg (by simp [Event.ofDispatch])]
    exact (List.length_filter_le _ _).trans hlen

end Sys2Proof.Machine
end

/-! ## Whole header cycles and whole calls: the one-word steps and the loop of the spec (42_command_list_processor.md R120 to
R134) -/

section
namespace Sys2Proof.Machine

open Sys2Proof

/-! ### How far a call has come, and how it ends -/

/-- From `s` to `t` the call has read `k` words of the same region, and the trace has only grown (R25, R134). -/
structure State.Advanced (s : State) (k : Nat) (t : State) : Prop where
  cur : t.cur = s.cur + 4 * k
  endAddr : t.endAddr = s.endAddr
  trace : s.trace <+: t.trace

/-- The call has ended in `t` by a fault, which is the last event since `s` (R160). -/
def State.EndsInFault (s t : State) : Prop := ∃ (u : State) (r : FaultRecord), s.trace <+: u.trace ∧ t = u.raise r

/-- The call has ended in `t`, by DONE or by a fault, and nothing is emitted after it (R174). -/
def State.EndsCall (s t : State) : Prop :=
  (∃ u : State, s.trace <+: u.trace ∧ t = u.endCall) ∨ s.EndsInFault t

theorem State.Advanced.trans {s t u : State} {j k : Nat} (h : s.Advanced j t) (h' : t.Advanced k u) :
    s.Advanced (k + j) u where
  cur := by rw [h'.cur, h.cur]; omega
  endAddr := h'.endAddr.trans h.endAddr
  trace := h.trace.trans h'.trace

theorem State.EndsInFault.of_prefix {s t u : State} (hp : s.trace <+: t.trace) (h : t.EndsInFault u) :
    s.EndsInFault u := by
  obtain ⟨v, r, hv, rfl⟩ := h
  exact ⟨v, r, hp.trans hv, rfl⟩

theorem State.EndsCall.of_prefix {s t u : State} (hp : s.trace <+: t.trace) (h : t.EndsCall u) : s.EndsCall u := by
  obtain ⟨v, hv, rfl⟩ | hfault := h
  · exact .inl ⟨v, hp.trans hv, rfl⟩
  · exact .inr (hfault.of_prefix hp)

theorem endsInFault_raise (s : State) (r : FaultRecord) : s.EndsInFault (s.raise r) :=
  ⟨s, r, List.prefix_refl _, rfl⟩

theorem State.EndsInFault.phase {s t : State} (h : s.EndsInFault t) : t.phase = .faulted := by
  obtain ⟨u, r, -, rfl⟩ := h
  rfl

/-- The host sees the end of a call in PHASE, in FAULT and in the last event (R174). -/
theorem State.EndsCall.last_event {s t : State} (h : s.EndsCall t) :
    ∃ es, (t.phase = .idle ∧ t.trace = s.trace ++ es ++ [.done]) ∨
      (t.phase = .faulted ∧ ∃ r, t.fault = some r ∧ t.trace = s.trace ++ es ++ [.fault r.code r]) := by
  obtain ⟨u, ⟨es, hes⟩, rfl⟩ | ⟨u, r, ⟨es, hes⟩, rfl⟩ := h
  · exact ⟨es, .inl ⟨rfl, by rw [hes]; rfl⟩⟩
  · exact ⟨es, .inr ⟨rfl, r, rfl, by rw [hes]; rfl⟩⟩

/-! ### What a call of the dispatcher leaves to the run -/

theorem State.CallFrame.advanced {s t : State} (h : s.CallFrame t) : s.Advanced 0 t where
  cur := (congrArg State.cur h.1).trans rfl
  endAddr := (congrArg State.endAddr h.1).trans rfl
  trace := by
    obtain htrace | ⟨e, -, htrace⟩ := h.2 <;> rw [htrace]
    exact List.prefix_append _ _

theorem advanced_afterRead (s : State) (v : Word) : s.Advanced 1 (s.afterRead v) := ⟨rfl, rfl, List.prefix_append _ _⟩

theorem advanced_afterHeader (s : State) (w : Word) : s.Advanced 1 (s.afterHeader w) := ⟨rfl, rfl, List.prefix_append _ _⟩

/-! ### The steps and the pseudocode side by side -/

/-- `k` steps from `s` lead to the state `t` that the pseudocode `o` answers: to the header position `k` words on, or to a fault
that has ended the call (R134). -/
structure State.Completes (s : State) (o : Host.Outcome State Fault Refusal) (k : Nat) (t : State) : Prop where
  run : Host.Core.run Sys2Proof.core k s = .next t
  pseudocode : o = .next t
  ends : (t.phase = .header ∧ s.Advanced k t) ∨ s.EndsInFault t

/-- One step that reads a word, and then the rest. -/
theorem State.Completes.cons {s t u : State} {o : Host.Outcome State Fault Refusal} {k : Nat} (hstep : step s = .next t)
    (hread : s.Advanced 1 t) (h : t.Completes o k u) : s.Completes o (k + 1) u where
  run := (run_succ_of_next hstep).trans h.run
  pseudocode := h.pseudocode
  ends := h.ends.imp (fun ⟨hp, hadv⟩ => ⟨hp, hread.trans hadv⟩) (fun hfault => hfault.of_prefix hread.trace)

/-- One step that is all there is. -/
theorem State.Completes.one {s t : State} {o : Host.Outcome State Fault Refusal} (hstep : step s = .next t)
    (ho : o = .next t) (hends : (t.phase = .header ∧ s.Advanced 1 t) ∨ s.EndsInFault t) : s.Completes o 1 t where
  run := run_succ_of_next hstep
  pseudocode := ho
  ends := hends

/-! ### The run of a header -/

/-- The pseudocode's loop variable is ARGI: what ARGI was before the loop sets it plays no part. -/
theorem runCalls_succ_argi (h : Header) (k i j : Nat) (s : State) :
    runCalls h (k + 1) i { s with argi := j } = runCalls h (k + 1) i s := rfl

/-- One turn of the loop whose call the dispatcher answers (R123 to R127). -/
theorem runCalls_succ {h : Header} {k i : Nat} {s t : State} {v : Word} (hi : s.argi = i) (hv : s.memRead s.cur = some v)
    (hcall : dispatch (methodOf h i) (runCallArgs h i v) (s.afterRead v) = .next t) :
    runCalls h (k + 1) i s = if t.phase = .faulted then .next t else runCalls h k (i + 1) t := by
  subst hi
  have hread : s.readAtCursor = some (v, s.afterRead v) := readAtCursor_eq_some.2 ⟨hv, rfl⟩
  rw [runCalls]
  simp only [hread]
  exact congrArg (unlessFaulted · _) hcall

/-- One turn of the loop whose read fails (R157). -/
theorem runCalls_succ_of_memRead_none {h : Header} {k i : Nat} {s : State} (hi : s.argi = i)
    (hv : s.memRead s.cur = none) :
    runCalls h (k + 1) i s = .next (s.raise (s.callRecord .port (methodOf h i) h.fields.subchannel none)) := by
  subst hi
  rw [runCalls]
  simp only [readAtCursor_eq_none.2 hv]

/-- A turn of the loop and the step beside it: both end the call with the same fault, or both read a word, make the call and
are left with the rest of the run (R129, R134). -/
theorem run_turn_cases {h : Header} {i : Nat} {s : State} (hp : s.phase = .args) (hh : s.hdr = h) (hi : s.argi = i) :
    (∃ u, step s = .next u ∧ (∀ k, runCalls h (k + 1) i s = .next u) ∧ s.EndsInFault u) ∨
    (∃ u, step s = .next u.advanceRun ∧ (∀ k, runCalls h (k + 1) i s = runCalls h k (i + 1) u) ∧ s.Advanced 1 u ∧
      u.phase = .args ∧ u.hdr = h ∧ u.argi = i) := by
  subst hh hi
  cases hv : s.memRead s.cur with
  | none =>
    exact .inl ⟨_, step_of_args_of_memRead_none hp hv, fun k => runCalls_succ_of_memRead_none rfl hv,
      endsInFault_raise s _⟩
  | some v =>
    obtain ⟨r, hcall⟩ | ⟨u, hcall, hframe⟩ :=
      dispatch_raises_or_callFrame (methodOf s.hdr s.argi) (runCallArgs s.hdr s.argi v) (s.afterRead v)
    · exact .inl ⟨_, step_of_call hp hv hcall, fun k => (runCalls_succ rfl hv hcall).trans (if_pos rfl),
        (endsInFault_raise _ r).of_prefix (advanced_afterRead s v).trace⟩
    · have hphase : u.phase = .args := hframe.phase.trans hp
      exact .inr ⟨u, step_of_call hp hv hcall,
        fun k => (runCalls_succ rfl hv hcall).trans (if_neg (by rw [hphase]; nofun)),
        (advanced_afterRead s v).trans hframe.advanced, hphase, hframe.hdr, hframe.argi⟩

/-- From call `i` on, with `k` calls after it, the steps complete the loop of the run (R129, R134). -/
theorem exists_completes_runCalls {h : Header} {k i : Nat} {s : State} (hp : s.phase = .args) (hh : s.hdr = h)
    (hi : s.argi = i) (hn : i + k + 1 = argCountOf h) :
    ∃ j t, j ≤ k ∧ s.Completes (runCalls h (k + 1) i s) (j + 1) t := by
  induction k generalizing i s with
  | zero =>
    obtain ⟨u, hstep, hloop, hfault⟩ | ⟨u, hstep, hloop, hread, hup, huh, hui⟩ := run_turn_cases hp hh hi
    · exact ⟨0, u, le_rfl, .one hstep (hloop 0) (.inr hfault)⟩
    · have hlast : u.argi + 1 = argCountOf u.hdr := by rw [hui, huh]; exact hn
      rw [advanceRun_of_last hup hlast] at hstep
      exact ⟨0, _, le_rfl, .one hstep (hloop 0) (.inl ⟨rfl, hread.cur, hread.endAddr, hread.trace⟩)⟩
  | succ k ih =>
    obtain ⟨u, hstep, hloop, hfault⟩ | ⟨u, hstep, hloop, hread, hup, huh, hui⟩ := run_turn_cases hp hh hi
    · exact ⟨0, u, Nat.zero_le _, .one hstep (hloop (k + 1)) (.inr hfault)⟩
    · have hmore : u.argi + 1 ≠ argCountOf u.hdr := by rw [hui, huh]; omega
      rw [advanceRun_of_more hup hmore, hui] at hstep
      obtain ⟨j, t, hj, hrest⟩ := ih (i := i + 1) (s := { u with argi := i + 1 }) hup huh rfl (by omega)
      rw [runCalls_succ_argi, ← hloop (k + 1)] at hrest
      exact ⟨j + 1, t, by omega, .cons hstep ⟨hread.cur, hread.endAddr, hread.trace⟩ hrest⟩

/-! ### The header cycle -/

/-- A header of a mode with a run, and with argument words, is followed by its run (R123 to R127). -/
theorem headerCycle_of_run {s : State} {w : Word} {h : Header} (hw : s.memRead s.cur = some w)
    (hdec : decodeHeader s.cfg.profile w = h) (hrun : modeHasRun h.mode = true) (hn : argCountOf h ≠ 0) :
    headerCycle s = runCalls h (argCountOf h) 0 { s.afterHeader w with phase := .args, hdr := h } := by
  have hread : s.readAtCursor = some (w, s.afterRead w) := readAtCursor_eq_some.2 ⟨hw, rfl⟩
  have hwhole : wholeRun h (s.afterHeader w) =
      runCalls h (argCountOf h) 0 { s.afterHeader w with phase := .args, hdr := h } := if_neg hn
  rw [← hwhole, headerCycle]
  simp only [hread, hdec]
  cases hm : h.mode with
  | increasingOld | increasing | nonIncreasingOld | nonIncreasing => rfl
  | increaseOnce => exact if_neg hn
  | inlineMode | invalid6 | invalid7 => rw [hm] at hrun; cases hrun

/-- Every other header is all done when its meaning is: the cycle is one step (R122, R127, R128, R135). -/
theorem headerCycle_of_no_run {s : State} {w : Word} {h : Header} (hw : s.memRead s.cur = some w)
    (hdec : decodeHeader s.cfg.profile w = h) (hno : modeHasRun h.mode = true → argCountOf h = 0) :
    headerCycle s = exec h.toInstr (s.afterHeader w) := by
  have hread : s.readAtCursor = some (w, s.afterRead w) := readAtCursor_eq_some.2 ⟨hw, rfl⟩
  have hwhole : modeHasRun h.mode = true → wholeRun h (s.afterHeader w) = .next (s.afterHeader w) :=
    fun hrun => if_pos (hno hrun)
  rw [headerCycle]
  simp only [hread, hdec]
  obtain ⟨f, mode⟩ := h
  cases mode with
  | increasingOld | increasing | nonIncreasingOld | nonIncreasing =>
    exact (hwhole rfl).trans (exec_toInstr_of_no_args rfl (by simp) (hno rfl) _).symm
  | increaseOnce => exact (if_pos (hno rfl)).trans (exec_increaseOnce_of_no_args (hno rfl) _).symm
  | inlineMode | invalid6 | invalid7 => rfl

theorem headerCycle_of_memRead_none {s : State} (hw : s.memRead s.cur = none) :
    headerCycle s = .next (s.raise (noRunRecord .port)) := by
  rw [headerCycle]
  simp only [readAtCursor_eq_none.2 hw]

/-- A header that begins no run leaves the phase as it was, or ends the call with a fault (R122, R127, R128, R135). -/
theorem exec_toInstr_of_no_run {h : Header} (hno : modeHasRun h.mode = true → argCountOf h = 0) (s : State) :
    ∃ t, exec h.toInstr s = .next t ∧ ((t.phase = s.phase ∧ s.Advanced 0 t) ∨ s.EndsInFault t) := by
  obtain ⟨hrun, -, he⟩ | ⟨-, -, he⟩ | ⟨-, he⟩ | ⟨-, he⟩ := exec_toInstr_cases h s
  · have hstart : s.startRun h = s := if_pos (hno hrun)
    exact ⟨s, he.trans (congrArg _ hstart), .inl ⟨rfl, rfl, rfl, List.prefix_refl _⟩⟩
  · exact ⟨_, he, .inr (endsInFault_raise s _)⟩
  · rw [he]
    obtain ⟨r, hcall⟩ | ⟨t, hcall, hframe⟩ := dispatch_raises_or_callFrame (methodOf h 0)
      { subchannel := h.fields.subchannel, value := inlineValue h.fields, remaining := 0 } { s with hdr := h, argi := 0 }
    · exact ⟨_, hcall, .inr ⟨{ s with hdr := h, argi := 0 }, r, List.prefix_refl _, rfl⟩⟩
    · have hadv := hframe.advanced
      exact ⟨t, hcall, .inl ⟨hframe.phase, hadv.cur, hadv.endAddr, hadv.trace⟩⟩
  · exact ⟨_, he, .inr (endsInFault_raise s _)⟩

/-- A header with a run: the step that begins it, and the steps of its calls (R123 to R127, R134). -/
theorem exists_completes_headerCycle_of_run {s : State} {w : Word} {h : Header} (hp : s.phase = .header)
    (hc : s.cur < s.endAddr) (hw : s.memRead s.cur = some w) (hdec : decodeHeader s.cfg.profile w = h)
    (hrun : modeHasRun h.mode = true) (hn : argCountOf h ≠ 0) :
    ∃ k t, k ≤ argCountOf h ∧ s.Completes (headerCycle s) (k + 1) t := by
  obtain ⟨k, hk⟩ := Nat.exists_eq_succ_of_ne_zero hn
  have hstep := step_of_header_of_memRead hp hc hw
  rw [decodeWord, hdec, exec_toInstr_of_hasRun hrun hn] at hstep
  obtain ⟨j, t, hj, hcalls⟩ := exists_completes_runCalls (h := h) (k := k) (i := 0)
    (s := { s.afterHeader w with phase := .args, hdr := h, argi := 0 }) rfl rfl rfl (by omega)
  have hread := advanced_afterHeader s w
  rw [headerCycle_of_run hw hdec hrun hn, hk, ← runCalls_succ_argi _ _ _ 0]
  exact ⟨j + 1, t, by omega, .cons hstep ⟨hread.cur, hread.endAddr, hread.trace⟩ hcalls⟩

/-- A header without a run: the one step that is its meaning (R122, R127, R128, R134, R135). -/
theorem exists_completes_headerCycle_of_no_run {s : State} {w : Word} {h : Header} (hp : s.phase = .header)
    (hc : s.cur < s.endAddr) (hw : s.memRead s.cur = some w) (hdec : decodeHeader s.cfg.profile w = h)
    (hno : modeHasRun h.mode = true → argCountOf h = 0) : ∃ t, s.Completes (headerCycle s) 1 t := by
  have hstep := step_of_header_of_memRead hp hc hw
  rw [decodeWord, hdec] at hstep
  obtain ⟨t, hexec, hends⟩ := exec_toInstr_of_no_run hno (s.afterHeader w)
  have hread := advanced_afterHeader s w
  refine ⟨t, .one (hstep.trans hexec) ((headerCycle_of_no_run hw hdec hno).trans hexec) ?_⟩
  exact hends.imp (fun ⟨htp, hadv⟩ => ⟨htp.trans hp, hread.trans hadv⟩) (fun hfault => hfault.of_prefix hread.trace)

/-- The steps complete the header cycle: one for the header, and one for each argument word, of which there are less than
`2^13` (R121, R134). -/
theorem exists_completes_headerCycle {s : State} (hp : s.phase = .header) (hc : s.cur < s.endAddr) :
    ∃ k t, k < 2 ^ 13 ∧ s.Completes (headerCycle s) (k + 1) t := by
  cases hw : s.memRead s.cur with
  | none =>
    exact ⟨0, _, by norm_num, .one (step_of_header_of_memRead_none hp hc hw) (headerCycle_of_memRead_none hw)
      (.inr (endsInFault_raise s _))⟩
  | some w =>
    obtain ⟨h, hdec⟩ : ∃ h, decodeHeader s.cfg.profile w = h := ⟨_, rfl⟩
    have hcount : argCountOf h < 2 ^ 13 := h.fields.argCount.isLt
    by_cases hrun : modeHasRun h.mode = true ∧ argCountOf h ≠ 0
    · obtain ⟨k, t, hk, hcycle⟩ := exists_completes_headerCycle_of_run hp hc hw hdec hrun.1 hrun.2
      exact ⟨k, t, by omega, hcycle⟩
    · have hno : modeHasRun h.mode = true → argCountOf h = 0 := fun hmode => by simpa [hmode] using hrun
      obtain ⟨t, hcycle⟩ := exists_completes_headerCycle_of_no_run hp hc hw hdec hno
      exact ⟨0, t, by norm_num, hcycle⟩

/-- Settles O45: the header's step, then the induction over the calls of its run. -/
theorem stepsCompleteTheHeaderCycle : Obligations.StepsCompleteTheHeaderCycle := by
  intro s hp hc
  obtain ⟨k, t, -, hcycle⟩ := exists_completes_headerCycle hp hc
  exact ⟨k + 1, t, hcycle.run, hcycle.pseudocode, hcycle.ends.imp And.left State.EndsInFault.phase⟩

/-! ### The loop of a call -/

/-- The most steps that a call takes from a header position with `words` words left in the region: one for each of them, and
one for each argument word past its end and for DONE; with none left, DONE alone (R130, R188). -/
def maxLoopSteps (words : Nat) : Nat := if words = 0 then 1 else words + 2 ^ 13

/-- A header cycle takes no more of the bound than its own steps, one for each of its `k + 1` words. -/
theorem add_maxLoopSteps_le {k words : Nat} (hwords : 0 < words) (hk : k < 2 ^ 13) :
    maxLoopSteps (words - (k + 1)) + (k + 1) ≤ maxLoopSteps words := by
  unfold maxLoopSteps
  split <;> split <;> omega

/-- The loop ends where the cursor has reached the end of the region (R130). -/
theorem headerLoop_succ_of_le {k : Nat} {s : State} (hc : s.endAddr ≤ s.cur) :
    headerLoop (k + 1) s = .next s.endCall := if_neg (Nat.not_lt.2 hc)

/-- One turn of the loop (R120). -/
theorem headerLoop_succ_of_lt {k : Nat} {s t : State} (hc : s.cur < s.endAddr) (hcycle : headerCycle s = .next t) :
    headerLoop (k + 1) s = if t.phase = .faulted then .next t else headerLoop k t := by
  rw [headerLoop, if_pos hc, hcycle]
  rfl

/-- From a header position the steps lead to the end of the call that the loop gives (R120, R130). -/
theorem exists_run_headerLoop {bound words : Nat} {s : State} (hp : s.phase = .header)
    (hwords : s.endAddr ≤ s.cur + 4 * words) (hbound : words < bound) :
    ∃ k t, k ≤ maxLoopSteps words ∧ Host.Core.run Sys2Proof.core k s = .next t ∧ headerLoop bound s = .next t ∧
      s.EndsCall t := by
  induction bound generalizing words s with
  | zero => omega
  | succ bound ih =>
    by_cases hc : s.cur < s.endAddr
    · have hpos : 0 < words := by omega
      obtain ⟨k, t, hk, hcycle⟩ := exists_completes_headerCycle hp hc
      have hsteps := add_maxLoopSteps_le hpos hk
      have hloop := headerLoop_succ_of_lt (k := bound) hc hcycle.pseudocode
      obtain ⟨htp, hadv⟩ | hfault := hcycle.ends
      · have hleft : t.endAddr ≤ t.cur + 4 * (words - (k + 1)) := by rw [hadv.endAddr, hadv.cur]; omega
        obtain ⟨j, u, hj, hrun, hrest, hends⟩ := ih htp hleft (by omega)
        rw [if_neg (by rw [htp]; nofun), hrest] at hloop
        exact ⟨k + 1 + j, u, by omega, (run_add hcycle.run).trans hrun, hloop, hends.of_prefix hadv.trace⟩
      · rw [if_pos hfault.phase] at hloop
        exact ⟨k + 1, t, by omega, hcycle.run, hloop, .inr hfault⟩
    · have hle : s.endAddr ≤ s.cur := Nat.le_of_not_lt hc
      have hone : 1 ≤ maxLoopSteps words := by unfold maxLoopSteps; split <;> omega
      exact ⟨1, _, hone, run_succ_of_next (step_of_header_of_le hp hle), headerLoop_succ_of_le hle,
        .inl ⟨s, List.prefix_refl _, rfl⟩⟩

/-! ### The whole call -/

/-- `process` is its start and then, unless the translation failed, the loop (R120, R157). -/
theorem processCall_eq (base : Addr) (count : Word) (s : State) :
    processCall base count s =
      if (s.startCall base count).phase = .faulted then .next (s.startCall base count)
      else headerLoop (count.toNat + 1) (s.startCall base count) := rfl

/-- From the start of a call the steps lead to the end of the call that the pseudocode gives (R120, R130). -/
theorem exists_run_startCall (s : State) (base : Addr) (count : Word) :
    ∃ k t, k ≤ maxLoopSteps count.toNat ∧ Host.Core.run Sys2Proof.core k (s.startCall base count) = .next t ∧
      processCall base count s = .next t ∧ s.EndsCall t := by
  rw [processCall_eq]
  obtain ⟨lin, -, hstart⟩ | ⟨-, hstart⟩ := startCall_cases s base count <;> rw [hstart]
  · rw [if_neg nofun]
    obtain ⟨k, t, hk, hrun, hloop, hends⟩ := exists_run_headerLoop (bound := count.toNat + 1) (words := count.toNat)
      (s := { s with
        cur := lin.toNat, endAddr := lin.toNat + count.toNat * 4, phase := .header
        trace := s.trace ++ [.translate base lin] })
      rfl (by dsimp only; omega) (by omega)
    exact ⟨k, t, hk, hrun, hloop, hends.of_prefix (List.prefix_append _ _)⟩
  · exact ⟨0, _, Nat.zero_le _, rfl, if_pos rfl, .inr (endsInFault_raise s _)⟩

/-- Settles O47: the bound of the whole call, and the last event of its end. -/
theorem processCallEndsInTime : Obligations.ProcessCallEndsInTime := by
  intro s base count rest hp hreq
  obtain ⟨k, t, hk, hrun, hcall, hends⟩ := exists_run_startCall { s with requests := rest } base count
  have hbound : maxLoopSteps count.toNat ≤ count.toNat + 8192 := by unfold maxLoopSteps; split <;> omega
  exact ⟨k + 1, t, by omega, (run_succ_of_next (step_of_process hp hreq)).trans hrun, hcall, hends.last_event⟩

/-- Settles O46: O47 without its bound and its events. -/
theorem stepsCompleteTheProcessCall : Obligations.StepsCompleteTheProcessCall := by
  intro s base count rest hp hreq
  obtain ⟨k, t, -, hrun, hcall, es, hlast⟩ := processCallEndsInTime s base count rest hp hreq
  exact ⟨k, t, hrun, hcall, hlast.imp And.left And.left⟩

end Sys2Proof.Machine
end

/-! ## Faults: their entry, how long they last, and how a call ends (60_exceptions.md R160 to R162, R174) -/

section
namespace Sys2Proof.Machine

open Sys2Proof

/-! ### Fault entry -/

/-- Settles O30: the three fields that `State.raise` writes are those of R160. -/
theorem faultEntryWritesOnlyTheFault : Obligations.FaultEntryWritesOnlyTheFault := by
  intro s r
  rfl

/-! ### A faulted block -/

/-- With no host action waiting a faulted block has no step (R134, log 10). -/
theorem step_of_faulted_of_no_request {s : State} (hp : s.phase = .faulted) (hreq : s.requests = []) :
    step s = .fault .stuckUntilReset := by
  rw [step_of_faulted hp, stepFaulted, hreq]

/-- `process` is not for a faulted block (R172, log 11). -/
theorem step_of_faulted_of_process {s : State} (hp : s.phase = .faulted) {base : Addr} {count : Word}
    {rest : List HostRequest} (hreq : s.requests = .process base count :: rest) :
    step s = .refused .processWhileFaulted := by
  rw [step_of_faulted hp, stepFaulted, hreq]

/-- The host's actions other than `process` and reset are changes of the port's data (R54, log 12). -/
theorem takeRequest_changes_port_data {r : HostRequest} (hprocess : ∀ base count, r ≠ .process base count)
    (hreset : r ≠ .reset) (s : State) :
    ∃ mem tmap answers, s.takeRequest r = { s with mem := mem, tmap := tmap, answers := answers } := by
  cases r with
  | process base count => exact absurd rfl (hprocess base count)
  | reset => exact absurd rfl hreset
  | setByte | setTranslation | setAnswer => exact ⟨_, _, _, rfl⟩

/-- Settles O31: the action that a step of a faulted block takes is reset, or one that touches the port's data alone. -/
theorem faultIsStickyUntilReset : Obligations.FaultIsStickyUntilReset := by
  intro s hp
  refine ⟨step_of_faulted_of_no_request hp, fun _ _ _ hreq => step_of_faulted_of_process hp hreq, fun t h => ?_,
    fun _ hreq => ⟨_, step_takes_request (.inr hp) hreq nofun⟩⟩
  obtain ⟨r, rest, hreq, hprocess, rfl⟩ := stepFaulted_next_cases (step_of_faulted hp ▸ h)
  by_cases hr : r = .reset
  · subst hr
    exact .inr ⟨rest, hreq, rfl, rfl, rfl, bindAt_resetBlock _⟩
  · obtain ⟨mem, tmap, answers, heq⟩ := takeRequest_changes_port_data hprocess hr { s with requests := rest }
    rw [heq]
    exact .inl ⟨hp, rfl, rfl, rfl, rfl, rfl, by simp [hreq, hr]⟩

/-! ### How a call ends -/

/-- An event that ends a call: DONE or FAULT (R174). -/
def Event.endsCall (e : Event) : Bool :=
  match e with
  | .done => true
  | .fault _ _ => true
  | .translate _ _ => false
  | .read _ _ => false
  | .write2D _ _ => false
  | .write3D _ _ _ => false
  | .writeCompute _ _ => false
  | .submitMacro _ _ => false
  | .diag _ _ _ _ => false

theorem endsCall_eq_false_of_ofDispatch {e : Event} (h : e.ofDispatch = true) : e.endsCall = false := by
  cases e with
  | done | fault => exact absurd h nofun
  | translate | read | write2D | write3D | writeCompute | submitMacro | diag => rfl

/-- From `s` to `t` the trace has grown by events that end no call. -/
def State.EmitsNoEnd (s t : State) : Prop :=
  ∃ es, t.trace = s.trace ++ es ∧ ∀ e ∈ es, Event.endsCall e = false

theorem emitsNoEnd_of_trace_eq {s t : State} (h : t.trace = s.trace) : s.EmitsNoEnd t :=
  ⟨[], by rw [h, List.append_nil], nofun⟩

theorem emitsNoEnd_of_event {s t : State} {e : Event} (h : t.trace = s.trace ++ [e]) (he : e.endsCall = false) :
    s.EmitsNoEnd t :=
  ⟨[e], h, List.forall_mem_singleton.2 he⟩

theorem State.EmitsNoEnd.trans {s t u : State} (h : s.EmitsNoEnd t) (h' : t.EmitsNoEnd u) : s.EmitsNoEnd u := by
  obtain ⟨es, hes, hend⟩ := h
  obtain ⟨fs, hfs, hend'⟩ := h'
  exact ⟨es ++ fs, by rw [hfs, hes, List.append_assoc], List.forall_mem_append.2 ⟨hend, hend'⟩⟩

theorem emitsNoEnd_afterRead (s : State) (w : Word) : s.EmitsNoEnd (s.afterRead w) := emitsNoEnd_of_event rfl rfl

theorem emitsNoEnd_afterHeader (s : State) (w : Word) : s.EmitsNoEnd (s.afterHeader w) := emitsNoEnd_of_event rfl rfl

theorem State.CallFrame.emitsNoEnd {s t : State} (h : s.CallFrame t) : s.EmitsNoEnd t := by
  obtain htrace | ⟨e, he, htrace⟩ := h.2
  · exact emitsNoEnd_of_trace_eq htrace
  · exact emitsNoEnd_of_event htrace (endsCall_eq_false_of_ofDispatch he)

/-- From `s` the block has come to `t` within a call: it goes on with no end told, or has raised a fault with none told
before it (R160, R174). -/
def State.GoesOnOrRaises (s t : State) : Prop :=
  (t.phase.active = true ∧ s.EmitsNoEnd t) ∨ ∃ (u : State) (r : FaultRecord), s.EmitsNoEnd u ∧ t = u.raise r

theorem goesOnOrRaises_raise (s : State) (r : FaultRecord) : s.GoesOnOrRaises (s.raise r) :=
  .inr ⟨s, r, emitsNoEnd_of_trace_eq rfl, rfl⟩

theorem State.GoesOnOrRaises.of_emitsNoEnd {s t u : State} (h : s.EmitsNoEnd t) (h' : t.GoesOnOrRaises u) :
    s.GoesOnOrRaises u := by
  obtain ⟨hactive, hend⟩ | ⟨v, r, hend, heq⟩ := h'
  · exact .inl ⟨hactive, h.trans hend⟩
  · exact .inr ⟨v, r, h.trans hend, heq⟩

theorem goesOnOrRaises_dispatch {m : Word} {a : CallArgs} {s t : State} (hp : s.phase.active = true)
    (h : dispatch m a s = .next t) : s.GoesOnOrRaises t := by
  obtain ⟨r, hcall⟩ | ⟨u, hcall, hframe⟩ := dispatch_raises_or_callFrame m a s <;> cases hcall.symm.trans h
  · exact goesOnOrRaises_raise s r
  · exact .inl ⟨hframe.phase ▸ hp, hframe.emitsNoEnd⟩

theorem active_startRun {s : State} (hp : s.phase.active = true) (h : Header) : (s.startRun h).phase.active = true := by
  obtain ⟨-, heq⟩ | ⟨-, heq⟩ := startRun_cases s h <;> rw [heq]
  · exact hp
  · rfl

/-- The run goes on to its next call or to a header position, and a fault stays (R134, R160). -/
theorem State.GoesOnOrRaises.advanceRun {s t : State} (h : s.GoesOnOrRaises t) : s.GoesOnOrRaises t.advanceRun := by
  obtain ⟨hactive, hend⟩ | ⟨u, r, hend, rfl⟩ := h
  · refine .inl ⟨?_, hend.trans (emitsNoEnd_of_trace_eq (trace_advanceRun t))⟩
    obtain ⟨-, -, heq⟩ | ⟨-, -, heq⟩ | ⟨-, heq⟩ := advanceRun_cases t <;> rw [heq]
    · rfl
    · exact hactive
    · exact hactive
  · exact .inr ⟨u, r, hend, rfl⟩

theorem goesOnOrRaises_exec_toInstr {h : Header} {s t : State} (hp : s.phase.active = true)
    (hexec : exec h.toInstr s = .next t) : s.GoesOnOrRaises t := by
  obtain ⟨-, -, he⟩ | ⟨-, -, he⟩ | ⟨-, he⟩ | ⟨-, he⟩ := exec_toInstr_cases h s <;> have ht := he.symm.trans hexec
  · cases ht
    exact .inl ⟨active_startRun hp h, emitsNoEnd_of_trace_eq (trace_startRun s h)⟩
  · cases ht
    exact goesOnOrRaises_raise s _
  · have hinline : State.GoesOnOrRaises { s with hdr := h, argi := 0 } t := goesOnOrRaises_dispatch hp ht
    exact hinline
  · cases ht
    exact goesOnOrRaises_raise s _

/-- What a step of an active call comes to: the end of the call by DONE, or a call that goes on or has raised a fault
(R130, R134, R160). -/
theorem step_of_active_cases {s t : State} (hp : s.phase.active = true) (h : step s = .next t) :
    t = s.endCall ∨ s.GoesOnOrRaises t := by
  obtain hheader | hargs := Phase.active_eq_true.1 hp
  · by_cases hc : s.cur < s.endAddr
    · cases hw : s.memRead s.cur with
      | none =>
        cases (step_of_header_of_memRead_none hheader hc hw).symm.trans h
        exact .inr (goesOnOrRaises_raise s _)
      | some w =>
        have hrun : (s.afterHeader w).GoesOnOrRaises t :=
          goesOnOrRaises_exec_toInstr hp ((step_of_header_of_memRead hheader hc hw).symm.trans h)
        exact .inr (hrun.of_emitsNoEnd (emitsNoEnd_afterHeader s w))
    · cases (step_of_header_of_le hheader (Nat.le_of_not_lt hc)).symm.trans h
      exact .inl rfl
  · obtain ⟨w, -, he⟩ | ⟨-, he⟩ := stepArgs_cases s <;> have ht := he.symm.trans (step_of_args hargs ▸ h)
    · rw [← dispatch_eq_exec] at ht
      obtain ⟨u, hu, rfl⟩ := afterCall_eq_next.1 ht
      have hcall : (s.afterRead w).GoesOnOrRaises u := goesOnOrRaises_dispatch hp hu
      exact .inr (hcall.advanceRun.of_emitsNoEnd (emitsNoEnd_afterRead s w))
    · cases ht
      exact .inr (goesOnOrRaises_raise s _)

theorem done_not_mem_of_endsCall_eq_false {es : List Event} (h : ∀ e ∈ es, Event.endsCall e = false) :
    Event.done ∉ es :=
  fun hmem => absurd (h _ hmem) nofun

theorem fault_not_mem_of_endsCall_eq_false {es : List Event} (h : ∀ e ∈ es, Event.endsCall e = false)
    (c : FaultCode) (r : FaultRecord) : Event.fault c r ∉ es :=
  fun hmem => absurd (h _ hmem) nofun

/-- Settles O44: DONE is told by the end of the call alone, FAULT by fault entry alone, and each sets its phase. -/
theorem callEndsExactlyWithDoneOrFault : Obligations.CallEndsExactlyWithDoneOrFault := by
  intro s t hp h
  obtain rfl | ⟨hactive, es, htrace, hend⟩ | ⟨u, r, ⟨es, htrace, hend⟩, rfl⟩ := step_of_active_cases hp h
  · exact ⟨[.done], rfl, by simp, by simp⟩
  · have hdone := done_not_mem_of_endsCall_eq_false hend
    have hfault := fault_not_mem_of_endsCall_eq_false hend
    refine ⟨es, htrace, ?_⟩
    obtain hphase | hphase := Phase.active_eq_true.1 hactive <;> simp [hphase, hdone, hfault]
  · have hdone := done_not_mem_of_endsCall_eq_false hend
    exact ⟨es ++ [.fault r.code r], by simp [htrace], by simp [hdone], iff_of_true rfl ⟨r.code, r, by simp⟩⟩

end Sys2Proof.Machine
end

/-! ## Reset, and the code words that are pending through a step (41_method_dispatcher.md R92 to R94; 70_reset_and_hazards.md R180,
R187) -/

section
namespace Sys2Proof.Machine

open Sys2Proof

/-! ### Reset -/

/-- Settles O32: the step is the host's reset, which leaves the surroundings of the block. -/
theorem resetClearsTheBlock : Obligations.ResetClearsTheBlock := by
  intro s rest hp hreq
  exact ⟨_, step_takes_request hp hreq nofun, bindAt_resetBlock _, rfl, rfl, rfl, rfl, rfl, rfl, rfl, rfl, rfl⟩

/-! ### When pending code is settled -/

theorem codeSettled_of_pending_eq_nil {s : State} (h : s.upload.pending = []) : s.codeSettled := by
  unfold State.codeSettled
  cases s.phase with
  | idle | header => exact h
  | args => exact fun hne => absurd h hne
  | faulted => trivial

theorem codeSettled_iff_of_args {s : State} (hp : s.phase = .args) :
    s.codeSettled ↔ (s.upload.pending ≠ [] → methodOf s.hdr s.argi = 0x46 ∨ methodOf s.hdr s.argi = 0x47) := by
  rw [State.codeSettled, hp]

theorem State.codeSettled.pending_of_idle {s : State} (hs : s.codeSettled) (hp : s.phase = .idle) :
    s.upload.pending = [] := by
  rwa [State.codeSettled, hp] at hs

theorem State.codeSettled.pending_of_header {s : State} (hs : s.codeSettled) (hp : s.phase = .header) :
    s.upload.pending = [] := by
  rwa [State.codeSettled, hp] at hs

/-- A faulted block may hold pending code (R161). -/
theorem codeSettled_raise (s : State) (r : FaultRecord) : (s.raise r).codeSettled := trivial

/-! ### What the operations do to pending code -/

theorem upload_startRun (s : State) (h : Header) : (s.startRun h).upload = s.upload := by
  obtain ⟨-, heq⟩ | ⟨-, heq⟩ := startRun_cases s h <;> rw [heq]

theorem upload_advanceRun (s : State) : s.advanceRun.upload = s.upload := by
  obtain ⟨-, -, heq⟩ | ⟨-, -, heq⟩ | ⟨-, heq⟩ := advanceRun_cases s <;> rw [heq]

/-- What a call does to the code words: it raises a fault, leaves no code pending, leaves the upload alone (a method other than
0x46 and 0x47), or adds a code word of a run with calls left (R92 to R94). -/
theorem dispatch_code_cases {m : Word} {a : CallArgs} {s t : State} (h : dispatch m a s = .next t) :
    (∃ r, t = s.raise r) ∨ t.upload.pending = [] ∨ (m ≠ 0x46 ∧ m ≠ 0x47 ∧ t.upload = s.upload) ∨
      ∃ u, m = 0x46 ∧ a.remaining ≠ 0 ∧ t = s.setUpload u := by
  obtain ⟨hentry, harg, -⟩ := classify_spec m
  have hleft (hu : t.upload = s.upload) (hne : classify m ≠ .macroEntry) (hna : classify m ≠ .macroArg) :
      m ≠ 0x46 ∧ m ≠ 0x47 ∧ t.upload = s.upload := ⟨mt harg.2 hna, mt hentry.2 hne, hu⟩
  obtain ⟨e, -, rfl, he⟩ | ⟨e, c, -, -, -, he⟩ | ⟨e, c, hc, -, hr, he⟩ | ⟨hc, -, he⟩ | ⟨hc, he⟩ | ⟨cls, e, hc, -, -, he⟩ |
    ⟨r, he, -⟩ := dispatch_cases m a s <;> cases he.symm.trans h
  · exact .inr (.inl rfl)
  · exact .inr (.inl rfl)
  · exact .inr (.inr (.inr ⟨_, harg.1 hc, hr, rfl⟩))
  · exact .inr (.inr (.inl (hleft rfl (by simp [hc]) (by simp [hc]))))
  · exact .inr (.inr (.inl (hleft rfl (by simp [hc]) (by simp [hc]))))
  · exact .inr (.inr (.inl (hleft rfl (by simp [hc]) (by simp [hc]))))
  · exact .inl ⟨r, rfl⟩

/-- The calls of a run go to the same method or up by one (R131). -/
theorem methodOf_succ (h : Header) (i : Nat) :
    methodOf h (i + 1) = methodOf h i ∨ methodOf h (i + 1) = methodOf h i + 1 := by
  have hnat : methodNat h (i + 1) = methodNat h i ∨ methodNat h (i + 1) = methodNat h i + 1 := by
    unfold methodNat
    cases h.mode with
    | increasingOld | increasing => exact .inr rfl
    | increaseOnce =>
      cases i with
      | zero => exact .inr rfl
      | succ i => exact .inl rfl
    | nonIncreasingOld | nonIncreasing | inlineMode | invalid6 | invalid7 => exact .inl rfl
  obtain hsame | hup := hnat
  · exact .inl (by rw [methodOf, methodOf, hsame])
  · right
    rw [methodOf, methodOf, hup, BitVec.ofNat_add]
    rfl

/-- After a call to 0x46 the run goes on to 0x46 or 0x47 (R131, R187). -/
theorem methodOf_succ_of_macroArg {h : Header} {i : Nat} (hm : methodOf h i = 0x46) :
    methodOf h (i + 1) = 0x46 ∨ methodOf h (i + 1) = 0x47 := by
  obtain hsame | hup := methodOf_succ h i
  · exact .inl (hsame.trans hm)
  · exact .inr (by rw [hup, hm]; rfl)

/-- No call is left after the last one (R132). -/
theorem remainingOf_of_last {n i : Nat} (h : i + 1 = n) : remainingOf n i = 0 := by
  subst h
  simp [remainingOf]

/-- From a settled run, to the method and with the count of its next call, the run goes on settled: a code word that is added is
followed by a call to 0x46 or 0x47, since the last call of a run submits (R94, R131). -/
theorem codeSettled_advanceRun_dispatch {m : Word} {a : CallArgs} {s u : State} (hp : s.phase = .args) (hs : s.codeSettled)
    (hm : m = methodOf s.hdr s.argi) (ha : a.remaining = remainingOf (argCountOf s.hdr) s.argi)
    (h : dispatch m a s = .next u) : u.advanceRun.codeSettled := by
  obtain ⟨r, rfl⟩ | hnil | ⟨h46, h47, hu⟩ | ⟨v, h46, hr, rfl⟩ := dispatch_code_cases h
  · exact codeSettled_raise s r
  · exact codeSettled_of_pending_eq_nil ((congrArg _ (upload_advanceRun u)).trans hnil)
  · have hnil : s.upload.pending = [] := by
      by_contra hne
      exact ((codeSettled_iff_of_args hp).1 hs hne).elim (fun e => h46 (hm.trans e)) fun e => h47 (hm.trans e)
    exact codeSettled_of_pending_eq_nil ((congrArg _ ((upload_advanceRun u).trans hu)).trans hnil)
  · have hmore : s.argi + 1 ≠ argCountOf s.hdr := fun hlast => hr (ha.trans (remainingOf_of_last hlast))
    rw [advanceRun_of_more (s := s.setUpload v) hp hmore]
    exact (codeSettled_iff_of_args (s := { s.setUpload v with argi := s.argi + 1 }) hp).2 fun _ =>
      methodOf_succ_of_macroArg (hm.symm.trans h46)

/-- With no code pending a header leaves it so: a run begins with none, and the one call of an immediate is its last (R94,
R128). -/
theorem codeSettled_exec_toInstr {h : Header} {s t : State} (hnil : s.upload.pending = [])
    (hexec : exec h.toInstr s = .next t) : t.codeSettled := by
  obtain ⟨-, -, he⟩ | ⟨-, -, he⟩ | ⟨-, he⟩ | ⟨-, he⟩ := exec_toInstr_cases h s <;> have ht := he.symm.trans hexec
  · cases ht
    exact codeSettled_of_pending_eq_nil ((congrArg _ (upload_startRun s h)).trans hnil)
  · cases ht
    exact codeSettled_raise s _
  · obtain ⟨r, rfl⟩ | hnil' | ⟨-, -, hu⟩ | ⟨v, -, hr, -⟩ := dispatch_code_cases ht
    · exact codeSettled_raise _ r
    · exact codeSettled_of_pending_eq_nil hnil'
    · exact codeSettled_of_pending_eq_nil ((congrArg _ hu).trans hnil)
    · exact absurd rfl hr
  · cases ht
    exact codeSettled_raise s _

/-- Reset discards pending code, `process` begins at a header position with the upload as it was in Idle, and the other
actions touch the port's data alone (R172, R180). -/
theorem codeSettled_takeRequest {s : State} (hs : s.codeSettled) {r : HostRequest}
    (hr : s.phase = .idle ∨ ∀ base count, r ≠ .process base count) : (s.takeRequest r).codeSettled := by
  cases r with
  | process base count =>
    have hidle : s.phase = .idle := hr.resolve_right fun hne => hne base count rfl
    obtain ⟨lin, -, heq⟩ | ⟨-, heq⟩ := startCall_cases s base count <;> rw [State.takeRequest, heq]
    · exact hs.pending_of_idle hidle
    · exact codeSettled_raise s _
  | reset => exact codeSettled_of_pending_eq_nil rfl
  | setByte | setTranslation | setAnswer => exact hs

/-! ### A step keeps pending code settled -/

theorem stepIdle_keeps_codeSettled {s t : State} (hp : s.phase = .idle) (hs : s.codeSettled) (h : stepIdle s = .next t) :
    t.codeSettled := by
  obtain ⟨-, rfl⟩ | ⟨r, rest, -, rfl⟩ := stepIdle_next_cases h
  · exact hs
  · exact codeSettled_takeRequest (s := { s with requests := rest }) hs (.inl hp)

theorem stepFaulted_keeps_codeSettled {s t : State} (hs : s.codeSettled) (h : stepFaulted s = .next t) : t.codeSettled := by
  obtain ⟨r, rest, -, hr, rfl⟩ := stepFaulted_next_cases h
  exact codeSettled_takeRequest (s := { s with requests := rest }) hs (.inr hr)

theorem stepHeader_keeps_codeSettled {s t : State} (hp : s.phase = .header) (hs : s.codeSettled)
    (h : stepHeader s = .next t) : t.codeSettled := by
  have hnil : s.upload.pending = [] := hs.pending_of_header hp
  by_cases hc : s.cur < s.endAddr
  · obtain ⟨w, -, he⟩ | ⟨-, he⟩ := stepHeader_of_lt hc <;> rw [he] at h
    · exact codeSettled_exec_toInstr (s := s.afterHeader w) hnil h
    · cases h
      exact codeSettled_raise s _
  · rw [stepHeader, if_neg hc] at h
    cases h
    exact hnil

theorem stepArgs_keeps_codeSettled {s t : State} (hp : s.phase = .args) (hs : s.codeSettled) (h : stepArgs s = .next t) :
    t.codeSettled := by
  obtain ⟨w, -, he⟩ | ⟨-, he⟩ := stepArgs_cases s <;> rw [he] at h
  · rw [← dispatch_eq_exec] at h
    obtain ⟨u, hu, rfl⟩ := afterCall_eq_next.1 h
    have hread : (s.afterRead w).codeSettled := hs
    exact codeSettled_advanceRun_dispatch (s := s.afterRead w) hp hread rfl rfl hu
  · cases h
    exact codeSettled_raise s _

/-- Settles O40: nothing is pending after reset, and a step keeps that by the phase it is taken in. The property carries itself
through the step; the machine's invariant is not needed for it. -/
theorem noCodeIsPendingInIdleOrAtAHeader : Obligations.NoCodeIsPendingInIdleOrAtAHeader := by
  refine ⟨fun _ => codeSettled_of_pending_eq_nil rfl, fun s t _ hs h => ?_⟩
  cases hp : s.phase with
  | idle => exact stepIdle_keeps_codeSettled hp hs (step_of_idle hp ▸ h)
  | header => exact stepHeader_keeps_codeSettled hp hs (step_of_header hp ▸ h)
  | args => exact stepArgs_keeps_codeSettled hp hs (step_of_args hp ▸ h)
  | faulted => exact stepFaulted_keeps_codeSettled hs (step_of_faulted hp ▸ h)

end Sys2Proof.Machine
end
